-- ==== Sys2Proof/Syntax.lean ====
section
/-! DEFINITION. The six commands of 30_encoding.md R62. A command has no operand field (R60): its operands are where R63 says. -/

namespace Sys2Proof

/-- One constructor per row of spec/opcode_table.json. -/
inductive Instr where
  /-- 0x01, `macro_period_us` (R82). -/
  | macrop
  /-- 0x02, `timeout_us_to_mclks` (R88). -/
  | us2mclk
  /-- 0x03, `encode_timeout` (R92). -/
  | encto
  /-- 0x04, `decode_timeout` (R95). -/
  | decto
  /-- 0x05, the gain correction (R122). -/
  | gainc
  /-- 0x06, the Measurement Decoder (R125). -/
  | unpack
  deriving DecidableEq, Repr

end Sys2Proof
end

