-- ==== Sys2Proof/Word.lean ====
section
/-! DEFINITION. The widths of the block's storage (00_scope.md R7, 10_state.md R20). Every quantity is an unsigned number. -/

namespace Sys2Proof

/-- CMD, STATUS and one byte of RB: 8 bits. -/
abbrev Byte := BitVec 8

/-- FOSC, an Encoded Timeout, a raw final range and a corrected distance: 16 bits. -/
abbrev Half := BitVec 16

/-- OPA, OPB, RES and MEAS: 32 bits. -/
abbrev Word := BitVec 32

end Sys2Proof
end

