-- ==== Sys2Proof/Decode.lean ====
section
/-! DEFINITION. The command encoding of 30_encoding.md R60 to R62, R65 and R67: a decoder total on the 256 command values, the encoder,
and the host's view of the opcode table. -/

namespace Sys2Proof

/-- Why a value written to CMD is no command. -/
inductive DecodeReject where
  /-- A reserved code, 0x00 or 0x07 to 0xFF (R65). The machine answers it with ILLEGAL_CMD, so this ends no run: safe. -/
  | reservedCode (c : Byte)
  deriving DecidableEq, Repr

/-- One row of R62: a value `c` selects it when `c &&& mask = pattern`. -/
structure OpcodeRow where
  mask : Byte
  pattern : Byte
  instr : Instr
  deriving DecidableEq, Repr

/-- The opcode map of R62. -/
def opcodeMap : List OpcodeRow :=
  [⟨0xFF, 0x01, .macrop⟩, ⟨0xFF, 0x02, .us2mclk⟩, ⟨0xFF, 0x03, .encto⟩,
   ⟨0xFF, 0x04, .decto⟩, ⟨0xFF, 0x05, .gainc⟩, ⟨0xFF, 0x06, .unpack⟩]

/-- The first row of a map that a command value selects. -/
def selectRow (c : Byte) : List OpcodeRow → Except DecodeReject Instr
  | [] => .error (.reservedCode c)
  | r :: rows => if c &&& r.mask = r.pattern then .ok r.instr else selectRow c rows

/-- The decoder of R67, total on the 256 command values; the reserved ones are rejected by name (R65). -/
def decode (c : Byte) : Except DecodeReject Instr :=
  selectRow c opcodeMap

/-- The command value of an instruction (the OPC column of R62). -/
def encode : Instr → Byte
  | .macrop => 0x01
  | .us2mclk => 0x02
  | .encto => 0x03
  | .decto => 0x04
  | .gainc => 0x05
  | .unpack => 0x06

/-- The value the host writes to CMD for an instruction of `nbits` bits that are `w` (bits above `nbits` are 0). -/
def tableCommand (nbits w : Nat) : Nat :=
  w % 2 ^ nbits

/-- The instruction read from the table's bits. A value of more than 8 bits is no command (R60): nothing is decoded. -/
def decodeTableWord (nbits w : Nat) : Option Instr :=
  if tableCommand nbits w < 2 ^ 8 then
    match decode (BitVec.ofNat 8 (tableCommand nbits w)) with
    | .ok i => some i
    | .error _ => none
  else none

end Sys2Proof
end

