-- ==== Sys2Proof/Config.lean ====
section
/-! DEFINITION. The implementation parameters of 00_scope.md R7, every one of them fixed by the spec: "No parameter is left for the
model to take as an argument", and there is no free value (93_implementation_defined.md section 2). -/

namespace Sys2Proof.Config

/-- W_V: bits of `vcsel_period_register_value`, the width MACROP's operand must fit (R7, R64). -/
def vcselBits : Nat := 8

/-- W_ENC: bits of an Encoded Timeout, the width DECTO's operand must fit (R7, R64). -/
def encodedBits : Nat := 16

/-- W_RAW: bits of the raw final range, the width GAINC's operand must fit (R7, R64). -/
def rawRangeBits : Nat := 16

/-- W_REG: bits of RES, the width an exact result must fit (R7, R144). -/
def resultBits : Nat := 32

/-- N_RB: bytes of the raw block buffer (R7, R28). -/
def rawBlockBytes : Nat := 17

/-- W_HA: bits of a host address (R7, R40). -/
def hostAddressBits : Nat := 6

/-- K_MP: the macro-period multiplier (R7, R81). -/
def macroMultiplier : Nat := 2304

/-- K_PLL: the numerator of the PLL period, 2^30 (R7, R81). -/
def pllNumerator : Nat := 1073741824

/-- K_GAIN_NUM: the numerator of the gain correction; its denominator is 2048 = 2^11 (R7, R121). -/
def gainNumerator : Nat := 2011

end Sys2Proof.Config
end

