-- ==== Sys2Proof/Machine/Access.lean ====
section
/-! DEFINITION. The host address space of 20_memory.md R40 and R41, the accesses a host can attempt, and the events that act on the
machine from outside (the host's accesses, the two host-side pseudo-operations of 30_encoding.md R69, and the reset of
70_reset_and_hazards.md R170). -/

namespace Sys2Proof.Machine

/-- A location of the address map (R41). -/
inductive Loc where
  | cmd | status | fosc | opa | opb | res | meas
  /-- RB[i], 0 ≤ i ≤ 16. -/
  | rb (i : Fin 17)
  deriving DecidableEq, Repr

/-- The location at a host address; `none` for a reserved address and for one above 0x3F (R41). -/
def locAt (a : Nat) : Option Loc :=
  if a = 0x00 then some .cmd
  else if a = 0x01 then some .status
  else if a = 0x02 then some .fosc
  else if a = 0x03 then some .opa
  else if a = 0x04 then some .opb
  else if a = 0x05 then some .res
  else if a = 0x06 then some .meas
  else if h : 0x20 ≤ a ∧ a < 0x31 then some (.rb ⟨a - 0x20, by omega⟩)
  else none

/-- The host address of a location (R41). -/
def addressOf : Loc → Nat
  | .cmd => 0x00
  | .status => 0x01
  | .fosc => 0x02
  | .opa => 0x03
  | .opb => 0x04
  | .res => 0x05
  | .meas => 0x06
  | .rb i => 0x20 + i.val

/-- The width column of R41: an access moves the whole location (R49). -/
def widthOf : Loc → Nat
  | .cmd => 8
  | .status => 8
  | .fosc => 16
  | .opa => 32
  | .opb => 32
  | .res => 32
  | .meas => 32
  | .rb _ => 8

/-- The host-read column of R41. -/
def hostReadable : Loc → Bool
  | .cmd => false
  | _ => true

/-- The host-write column of R41; a write of CMD executes a command. -/
def hostWritable : Loc → Bool
  | .status => false
  | .res => false
  | .meas => false
  | _ => true

/-- A host access (00_scope.md R13). Address and value are plain numbers, so that the accesses R45 refuses can be written down. -/
inductive HostAccess where
  /-- `HostRead(a)`. -/
  | read (a : Nat)
  /-- `HostWrite(a, v)`. -/
  | write (a v : Nat)
  deriving DecidableEq, Repr

/-- The operand register a `MOV` carries RES to (30_encoding.md R69). -/
inductive MovTarget where
  | opa | opb
  deriving DecidableEq, Repr

/-- The location of a `MOV`'s target. -/
def movLoc : MovTarget → Loc
  | .opa => .opa
  | .opb => .opb

/-- What acts on the machine from outside. -/
inductive Event where
  /-- One host access. -/
  | access (h : HostAccess)
  /-- `MOV OPA, RES` or `MOV OPB, RES`: a read of RES, then a write of the value read (R69). -/
  | mov (t : MovTarget)
  /-- `CHK`: a read of STATUS; the host goes on only if the value is 0 (R69). -/
  | chk
  /-- The power-on or hardware reset (70_reset_and_hazards.md R170), no access of the host's. -/
  | reset
  deriving DecidableEq, Repr

/-- Whether an event comes from the reset line, not from the host's listing. -/
def isReset : Event → Bool
  | .reset => true
  | _ => false

end Sys2Proof.Machine
end

