-- ==== Sys2Proof/Machine/State.lean ====
section
/-! DEFINITION. The state: the eight items of 10_state.md R20 (CMD holds nothing, R24), and the host agent's list of events to come and
values read (10_state.md R31, 70_reset_and_hazards.md R173). The block has no other state (R29 to R31). -/

namespace Sys2Proof.Machine

/-- The bytes of RB by offset (R28), in ONE canonical form: offsets strictly rising, all below 17, no byte equal to 0, which is what an
unlisted offset reads as (R34: reset contents all 0). -/
abbrev Memory := List Host.Cell

/-- The machine's state. -/
structure State where
  /-- STATUS (R25): ERR in bits 2:0; bits 7:3 read as 0. -/
  status : Byte
  /-- FOSC (R26), the cached `fast_osc_frequency`. -/
  fosc : Half
  /-- OPA (R21), operand A. -/
  opa : Word
  /-- OPB (R22), operand B. -/
  opb : Word
  /-- RES (R23), the scalar result. -/
  res : Word
  /-- MEAS (R27), the Measurement. -/
  meas : Word
  /-- RB (R28), the raw block buffer. -/
  rb : Memory
  /-- The host's: the events still to come, oldest first (R31; notes/assumptions/1.md). DESIGN CHOICE; safe. -/
  pending : List Event
  /-- The host's: the values its reads returned, oldest first (R173; notes/assumptions/2.md). DESIGN CHOICE; safe. -/
  returned : List Nat
  deriving DecidableEq, Repr

/-- A machine fault: none. 60_exceptions.md R159 says that the four error codes are "not faults of the model" and that no behaviour is
undefined, so no step raises one. DEDUCED; safe (notes/assumptions/12.md). -/
inductive Fault where
  deriving DecidableEq, Repr

/-- Why a step is refused: the accesses of 20_memory.md R45, raised by the host port. Each is safe: the spec gives them no next state. -/
inductive Refusal where
  /-- Raised by an instruction without a meaning; there is none in this model. Safe. -/
  | notModelled (mnemonic : String)
  /-- Raised by a host read of CMD (R45). Safe. -/
  | readOfCmd
  /-- Raised by a host write of STATUS, RES or MEAS (R45), with the location. Safe. -/
  | writeOfReadOnly (l : Loc)
  /-- Raised by a host access to 0x07 to 0x1F or 0x31 to 0x3F (R45), with the address. Safe. -/
  | reservedAddress (a : Nat)
  /-- Raised by a host access to an address above 0x3F (R45), with the address. Safe. -/
  | addressAboveMap (a : Nat)
  /-- Raised by a host write whose value does not fit the location's width (R45), with location and value. Safe. -/
  | valueTooWide (l : Loc) (v : Nat)
  deriving DecidableEq, Repr

/-- The machine right after reset: every item zero (R34, 70_reset_and_hazards.md R170), and the host has issued nothing. -/
def State.reset : State where
  status := 0
  fosc := 0
  opa := 0
  opb := 0
  res := 0
  meas := 0
  rb := []
  pending := []
  returned := []

end Sys2Proof.Machine
end

