-- ==== Sys2Proof/Machine/Flags.lean ====
section
/-! DEFINITION. STATUS.ERR, the block's only flag (10_state.md R25), the four errors (60_exceptions.md R140) and the checks that raise
them (R142 to R144). -/

namespace Sys2Proof.Machine

/-- The four synchronous errors of R140. -/
inductive Err where
  /-- A reserved command code (R141). -/
  | illegalCmd
  /-- OPA has bits set above the operand's width (R142). -/
  | badOperand
  /-- US2MCLK with OPB = 0 (R143). -/
  | divZero
  /-- The exact result does not fit RES (R144). -/
  | range
  deriving DecidableEq, Repr

/-- The code column of R140; code 0 is OK. -/
def errCode : Err → BitVec 3
  | .illegalCmd => 1
  | .badOperand => 2
  | .divZero => 3
  | .range => 4

/-- STATUS with an error code in ERR; bits 7:3 are hardwired 0 (R25). -/
def statusOf (code : BitVec 3) : Byte :=
  code.setWidth 8

/-- STATUS.ERR, bits 2:0 (R25). -/
def errField (status : Byte) : BitVec 3 :=
  status.setWidth 3

/-- The operand width check of 30_encoding.md R64: a value with bits above the operand's width is BAD_OPERAND, never truncated. -/
def fitOperand (bits : Nat) (r : Word) : Except Err Nat :=
  if r.toNat < 2 ^ bits then .ok r.toNat else .error .badOperand

/-- The divisor check of R143. -/
def nonZeroDivisor (r : Word) : Except Err Nat :=
  if r = 0 then .error .divZero else .ok r.toNat

/-- The result check of R144: an exact result of 2^32 or more is RANGE, never truncated. -/
def fitResult (r : Nat) : Except Err Nat :=
  if r < 2 ^ Config.resultBits then .ok r else .error .range

end Sys2Proof.Machine
end

