-- ==== Sys2Proof/Machine/Ops.lean ====
section
/-! DEFINITION. The shared operations: bit lengths (00_scope.md R9), the bytes of RB (R11, 20_memory.md R46), the fields of MEAS
(10_state.md R27), how a command ends (R12: with a result, or with an error, 60_exceptions.md R146) and the block's reset
(70_reset_and_hazards.md R170). -/

namespace Sys2Proof.Machine

/-- The number of bits of `v` without leading zeros, `bitlen` of R9. -/
def bitlen (v : Nat) : Nat :=
  if v = 0 then 0 else Nat.log2 v + 1

/-! ### The bytes of RB -/

/-- The byte at an offset; an unlisted offset reads as 0 (R34). -/
def Memory.read : Memory → Nat → Byte
  | [], _ => 0
  | (k, b) :: m, a => if a = k then b else Memory.read m a

/-- RB with the byte `b` at offset `a`. Writing 0 removes the cell, so equal contents are equal lists. -/
def Memory.write : Memory → Nat → Byte → Memory
  | [], a, b => if b = 0 then [] else [(a, b)]
  | (k, c) :: m, a, b =>
    if a < k then (if b = 0 then (k, c) :: m else (a, b) :: (k, c) :: m)
    else if a = k then (if b = 0 then m else (a, b) :: m)
    else (k, c) :: Memory.write m a b

/-- The cells from offset `lo` on are in canonical form: offsets strictly rising and below 17, no byte 0. -/
def Memory.wfFrom : Nat → Memory → Bool
  | _, [] => true
  | lo, (k, b) :: m => decide (lo ≤ k) && decide (k < Config.rawBlockBytes) && decide (b ≠ 0) && Memory.wfFrom (k + 1) m

/-- RB is in its canonical form (the docstring of `Memory`). -/
def Memory.wf (m : Memory) : Bool :=
  Memory.wfFrom 0 m

/-- `MemRead(off, n)` of R11: `n` bytes from offset `off` as one big-endian number, the lower offset more significant (R46). -/
def memRead (m : Memory) (off : Nat) : Nat → Nat
  | 0 => 0
  | n + 1 => memRead m off n * 256 + (m.read (off + n)).toNat

/-! ### The fields of MEAS -/

/-- MEAS from its three fields, `s ‖ n ‖ zext_16(d)` (41_measurement_decoder.md R125). -/
def packMeas (status stream dist : Nat) : Word :=
  BitVec.ofNat 8 status ++ BitVec.ofNat 8 stream ++ BitVec.ofNat 16 dist

/-- MEAS.STATUS_CODE, bits 31:24 (R27). -/
def measStatusCode (m : Word) : Byte :=
  m.extractLsb' 24 8

/-- MEAS.STREAM, bits 23:16 (R27). -/
def measStream (m : Word) : Byte :=
  m.extractLsb' 16 8

/-- MEAS.DIST_MM, bits 15:0 (R27). -/
def measDistMm (m : Word) : Half :=
  m.extractLsb' 0 16

/-! ### How a command ends -/

/-- Error entry (R146), the one way an error is taken: STATUS.ERR gets the code and nothing else changes. Nothing is saved, no mode
changes, and there is no handler and nothing to return from (R147). -/
def State.raiseError (s : State) (e : Err) : State :=
  { s with status := statusOf (errCode e) }

/-- A scalar command succeeds: all 32 bits of RES are written, `zext_32` of the result, and ERR becomes 0 (R12, R23). -/
def State.succeedRes (s : State) (r : Nat) : State :=
  { s with res := BitVec.ofNat 32 r, status := statusOf 0 }

/-- UNPACK succeeds: all 32 bits of MEAS are written and ERR becomes 0 (R27, 41_measurement_decoder.md R125). -/
def State.succeedMeas (s : State) (m : Word) : State :=
  { s with meas := m, status := statusOf 0 }

/-- A scalar command ends with its result or with the first error its checks raised (R12, R145). -/
def State.finishRes (s : State) : Except Err Nat → State
  | .error e => s.raiseError e
  | .ok r => s.succeedRes r

/-- The reset of the block (R170): the eight items take their values of R34; what is the host's stays as it is (log 5). -/
def State.resetBlock (s : State) : State :=
  { State.reset with pending := s.pending, returned := s.returned }

end Sys2Proof.Machine
end

