-- ==== Sys2Proof/Machine/Operands.lean ====
section
/-! DEFINITION. The operand places of 30_encoding.md R63. Operands are unsigned and are used as they stand: nothing is extended, scaled or
shifted on the way in. -/

namespace Sys2Proof.Machine

/-- MACROP's `vcsel_period_register_value`: OPA, which must fit 8 bits. -/
def operandVcsel (s : State) : Except Err Nat :=
  fitOperand Config.vcselBits s.opa

/-- MACROP's `fast_osc_frequency`: FOSC, always 16 bits. -/
def operandFrequency (s : State) : Nat :=
  s.fosc.toNat

/-- US2MCLK's `timeout_us`: OPA, any 32-bit value. -/
def operandTimeoutUs (s : State) : Nat :=
  s.opa.toNat

/-- US2MCLK's `macro_period_us`: OPB, any 32-bit value but 0. -/
def operandMacroPeriod (s : State) : Except Err Nat :=
  nonZeroDivisor s.opb

/-- ENCTO's `timeout_mclks`: OPA, any 32-bit value. -/
def operandMclks (s : State) : Nat :=
  s.opa.toNat

/-- DECTO's `encoded`: OPA, which must fit 16 bits. -/
def operandEncoded (s : State) : Except Err Nat :=
  fitOperand Config.encodedBits s.opa

/-- GAINC's `final_range_raw`: OPA, which must fit 16 bits. -/
def operandRawRange (s : State) : Except Err Nat :=
  fitOperand Config.rawRangeBits s.opa

/-- UNPACK's range status, `MemRead(0, 1)` (41_measurement_decoder.md R120). -/
def operandRangeStatus (m : Memory) : Nat :=
  memRead m 0 1

/-- UNPACK's stream count, `MemRead(2, 1)` (R120). -/
def operandStreamCount (m : Memory) : Nat :=
  memRead m 2 1

/-- UNPACK's `final_range_raw`, `MemRead(13, 2)`: RB[13] is the high byte (R120, 20_memory.md R46). -/
def operandFinalRange (m : Memory) : Nat :=
  memRead m 13 2

end Sys2Proof.Machine
end

