-- ==== Sys2Proof/Machine/Measurement.lean ====
section
/-! DEFINITION. The measurement unit (41_measurement_decoder.md): GAINC and UNPACK. -/

namespace Sys2Proof.Machine

/-- `gain_correct(r)` of R121: the nearest integer to `r * 2011 / 2048`, a tie going up. -/
def gainCorrect (r : Nat) : Nat :=
  (r * Config.gainNumerator + 1024) >>> 11

/-- GAINC (R122): no RANGE is possible (R123). -/
def execGainc (s : State) : Host.Outcome State Fault Refusal :=
  .next (s.finishRes (do
    let r ← operandRawRange s
    .ok (gainCorrect r)))

/-- `unpack(B)` of R124: status, stream count and corrected distance. -/
def unpackBlock (m : Memory) : Nat × Nat × Nat :=
  (operandRangeStatus m, operandStreamCount m, gainCorrect (operandFinalRange m))

/-- UNPACK (R125): no error; it judges no status and counts no stream. -/
def execUnpack (s : State) : Host.Outcome State Fault Refusal :=
  .next (s.succeedMeas (packMeas (unpackBlock s.rb).1 (unpackBlock s.rb).2.1 (unpackBlock s.rb).2.2))

end Sys2Proof.Machine
end

