-- ==== Sys2Proof/Machine/Timing.lean ====
section
/-! DEFINITION. The timing unit (40_timing_calculator.md): MACROP, US2MCLK, ENCTO, DECTO. The functions are on natural numbers and exact:
no intermediate is reduced (R104; decision D5 of the spec, notes/assumptions/10.md). -/

namespace Sys2Proof.Machine

/-! ### MACROP -/

/-- `pll_period_us` of R81: floor division. -/
def pllPeriodUs (f : Nat) : Nat :=
  Config.pllNumerator / f

/-- `vcsel_period_pclks` of R81. -/
def vcselPeriodPclks (v : Nat) : Nat :=
  (v + 1) * 2

/-- Step t1 of R81. -/
def macroT1 (f : Nat) : Nat :=
  Config.macroMultiplier * pllPeriodUs f

/-- Step t2 of R81. -/
def macroT2 (f : Nat) : Nat :=
  macroT1 f >>> 6

/-- Step t3 of R81. -/
def macroT3 (v f : Nat) : Nat :=
  macroT2 f * vcselPeriodPclks v

/-- `macro_period(v, f)` of R81, step t4; 0 is the source's sentinel for a zero frequency (60_exceptions.md R150). -/
def macroPeriod (v f : Nat) : Nat :=
  if f = 0 then 0 else macroT3 v f >>> 6

/-- MACROP (R82). -/
def execMacrop (s : State) : Host.Outcome State Fault Refusal :=
  .next (s.finishRes (do
    let v ← operandVcsel s
    fitResult (macroPeriod v (operandFrequency s))))

/-! ### US2MCLK -/

/-- `us_to_mclks(t, M)` of R87, for `M ≥ 1`. -/
def usToMclks (t mp : Nat) : Nat :=
  ((t <<< 12) + mp / 2) / mp

/-- US2MCLK (R88). -/
def execUs2mclk (s : State) : Host.Outcome State Fault Refusal :=
  .next (s.finishRes (do
    let mp ← operandMacroPeriod s
    fitResult (usToMclks (operandTimeoutUs s) mp)))

/-! ### ENCTO -/

/-- The smallest `e` with `(y >> e) ≤ 255`, searched upwards; the first argument bounds the search and `y` itself always suffices. -/
def leastExponent : Nat → Nat → Nat
  | 0, _ => 0
  | fuel + 1, y => if y ≤ 255 then 0 else leastExponent fuel (y >>> 1) + 1

/-- `encode(x)` of R91: 0 for 0; otherwise the exponent and the truncated mantissa of `x - 1`. -/
def encodeTimeout (x : Nat) : Nat :=
  if x = 0 then 0
  else
    let y := x - 1
    let e := leastExponent y y
    (e <<< 8) ||| (y >>> e)

/-- ENCTO (R92): no error. -/
def execEncto (s : State) : Host.Outcome State Fault Refusal :=
  .next (s.finishRes (.ok (encodeTimeout (operandMclks s))))

/-! ### DECTO -/

/-- MAN, bits 7:0 of an Encoded Timeout (R80). -/
def mantissaOf (c : Nat) : Nat :=
  c &&& 0xFF

/-- EXP, bits 15:8 of an Encoded Timeout (R80). -/
def exponentOf (c : Nat) : Nat :=
  c >>> 8

/-- `decode(c)` of R94, exact for every exponent up to 255: no shift count is reduced (R104). -/
def decodeTimeout (c : Nat) : Nat :=
  (mantissaOf c <<< exponentOf c) + 1

/-- DECTO (R95). -/
def execDecto (s : State) : Host.Outcome State Fault Refusal :=
  .next (s.finishRes (do
    let c ← operandEncoded s
    fitResult (decodeTimeout c)))

end Sys2Proof.Machine
end

