-- ==== Sys2Proof/Machine/Dispatch.lean ====
section
/-! DEFINITION. One arm per command (30_encoding.md R62), each one call of its meaning. -/

namespace Sys2Proof.Machine

def exec (i : Instr) (s : State) : Host.Outcome State Fault Refusal :=
  match i with
  | .macrop => Sys2Proof.Machine.execMacrop s
  | .us2mclk => Sys2Proof.Machine.execUs2mclk s
  | .encto => Sys2Proof.Machine.execEncto s
  | .decto => Sys2Proof.Machine.execDecto s
  | .gainc => Sys2Proof.Machine.execGainc s
  | .unpack => Sys2Proof.Machine.execUnpack s

end Sys2Proof.Machine
end

