-- ==== Sys2Proof/Machine/Port.lean ====
section
/-! DEFINITION. The host port: what a host read, a host write (20_memory.md R42 to R45), a command write (30_encoding.md R67), the
pseudo-operations MOV and CHK (R69) and the reset line (70_reset_and_hazards.md R170) do. -/

namespace Sys2Proof.Machine

/-- The value a host read of STATUS gives: ERR, with bits 7:3 read as 0 (10_state.md R25). -/
def statusValue (s : State) : Byte :=
  statusOf (errField s.status)

/-- The current value of a readable location, all its bits at once (R44); CMD holds nothing (R24) and is never asked. -/
def locValue (s : State) : Loc → Nat
  | .cmd => 0
  | .status => (statusValue s).toNat
  | .fosc => s.fosc.toNat
  | .opa => s.opa.toNat
  | .opb => s.opb.toNat
  | .res => s.res.toNat
  | .meas => s.meas.toNat
  | .rb i => (s.rb.read i.val).toNat

/-- The refusal for an address that holds no location: reserved, or above the 6-bit address space (R40, R45). -/
def noLocation (a : Nat) : Refusal :=
  if a < 2 ^ Config.hostAddressBits then .reservedAddress a else .addressAboveMap a

/-- `HostRead(a)` (R44): the value, with no side effect; or the refusal of R45. -/
def hostRead (a : Nat) (s : State) : Except Refusal Nat :=
  match locAt a with
  | none => .error (noLocation a)
  | some l => if hostReadable l then .ok (locValue s l) else .error .readOfCmd

/-- A command write (R43, R67): the decoded command runs whole; a reserved code ends with ILLEGAL_CMD (R65, 60_exceptions.md R141). -/
def runCommand (c : Byte) (s : State) : Host.Outcome State Fault Refusal :=
  match decode c with
  | .ok i => exec i s
  | .error _ => .next (s.raiseError .illegalCmd)

/-- A host write of a value that fits to a writable location: it stores the value (R42) or, for CMD, runs the command (R43). -/
def storeLoc (l : Loc) (v : Nat) (s : State) : Host.Outcome State Fault Refusal :=
  match l with
  | .cmd => runCommand (BitVec.ofNat 8 v) s
  | .fosc => .next { s with fosc := BitVec.ofNat 16 v }
  | .opa => .next { s with opa := BitVec.ofNat 32 v }
  | .opb => .next { s with opb := BitVec.ofNat 32 v }
  | .rb i => .next { s with rb := s.rb.write i.val (BitVec.ofNat 8 v) }
  | .status => .refused (.writeOfReadOnly l)
  | .res => .refused (.writeOfReadOnly l)
  | .meas => .refused (.writeOfReadOnly l)

/-- `HostWrite(a, v)` (R42, R43); or the refusal of R45. -/
def hostWrite (a v : Nat) (s : State) : Host.Outcome State Fault Refusal :=
  match locAt a with
  | none => .refused (noLocation a)
  | some l =>
    if hostWritable l then
      if v < 2 ^ widthOf l then storeLoc l v s else .refused (.valueTooWide l v)
    else .refused (.writeOfReadOnly l)

/-- The host notes the value a read returned (70_reset_and_hazards.md R173). -/
def State.note (s : State) (n : Nat) : State :=
  { s with returned := s.returned ++ [n] }

/-- A host read, its value noted. -/
def readNoted (a : Nat) (s : State) : Host.Outcome State Fault Refusal :=
  match hostRead a s with
  | .ok n => .next (s.note n)
  | .error r => .refused r

/-- The first half of `MOV` (R69): RES is read and noted, and the write of that value is the host's next access (log 7). -/
def moveRes (t : MovTarget) (s : State) : Host.Outcome State Fault Refusal :=
  match hostRead (addressOf .res) s with
  | .ok n => .next { s.note n with pending := .access (.write (addressOf (movLoc t)) n) :: s.pending }
  | .error r => .refused r

/-- `CHK` (R69): STATUS is read and noted; when it is not 0 the rest of the host's listing is dropped (R70), but not the resets, which are
not the host's (log 6). -/
def checkStatus (s : State) : Host.Outcome State Fault Refusal :=
  match hostRead (addressOf .status) s with
  | .ok n => .next (if n = 0 then s.note n else { s.note n with pending := s.pending.filter isReset })
  | .error r => .refused r

/-- One event, taken off the pending list before it acts. -/
def perform (e : Event) (s : State) : Host.Outcome State Fault Refusal :=
  match e with
  | .access (.read a) => readNoted a s
  | .access (.write a v) => hostWrite a v s
  | .mov t => moveRes t s
  | .chk => checkStatus s
  | .reset => .next s.resetBlock

/-- The next event of the pending list; with none the block is idle and holds its state (60_exceptions.md R157; log 3). -/
def advance (s : State) : Host.Outcome State Fault Refusal :=
  match s.pending with
  | [] => .next s
  | e :: rest => perform e { s with pending := rest }

/-- The state in which the host's next access is the write of `n` to CMD. -/
def issueCommand (s : State) (n : Nat) : State :=
  { s with pending := .access (.write (addressOf .cmd) n) :: s.pending }

end Sys2Proof.Machine
end

