-- ==== Sys2Proof/Machine/Step.lean ====
section
/-! DEFINITION. One step of the machine: the next event of the host's list or of the reset line (20_memory.md R52). -/

namespace Sys2Proof.Machine

/-- One step: one event, whole, before the next begins (R52). -/
def step (s : State) : Host.Outcome State Fault Refusal :=
  advance s

/-- `s` with the opcode-table word as the next value the host writes to CMD, which is where a command comes from (30_encoding.md R60). The
block stores no program (10_state.md R31): this stands for the host issuing the access (notes/assumptions/11.md). -/
def State.withFetchWord (s : State) (nbits w : Nat) : State :=
  issueCommand s (tableCommand nbits w)

end Sys2Proof.Machine
end

