-- ==== Sys2Proof/Machine/Listing.lean ====
section
/-! DEFINITION. The listing syntax of 30_encoding.md R68 and the pseudo-instructions of R69, and the events each line stands for. -/

namespace Sys2Proof.Machine

/-- A line of a listing. Numbers are plain, so that a line out of its bounds can be written down and refused. -/
inductive Line where
  /-- `WR FOSC, n`. -/
  | wrFosc (n : Nat)
  /-- `WR OPA, n`. -/
  | wrOpa (n : Nat)
  /-- `WR OPB, n`. -/
  | wrOpb (n : Nat)
  /-- `WRB i, n`. -/
  | wrb (i n : Nat)
  /-- A command mnemonic. -/
  | command (i : Instr)
  /-- `CMD n`, for reserved codes. -/
  | cmd (n : Nat)
  /-- `RD STATUS`. -/
  | rdStatus
  /-- `RD FOSC`. -/
  | rdFosc
  /-- `RD OPA`. -/
  | rdOpa
  /-- `RD OPB`. -/
  | rdOpb
  /-- `RD RES`. -/
  | rdRes
  /-- `RD MEAS`. -/
  | rdMeas
  /-- `RDB i`. -/
  | rdb (i : Nat)
  /-- `MOV OPA, RES` or `MOV OPB, RES`. -/
  | mov (t : MovTarget)
  /-- `LDBLK b0, b1, ..., b16`. -/
  | ldblk (bytes : List Nat)
  /-- `CHK`. -/
  | chk
  deriving DecidableEq, Repr

/-- The writes of `LDBLK` from offset `i` on, in offset order (R69). -/
def blockWrites : Nat → List Nat → List Event
  | _, [] => []
  | i, b :: bs => .access (.write (0x20 + i) b) :: blockWrites (i + 1) bs

/-- The host accesses a line stands for (the encoding column of R68, the expansion column of R69). -/
def lineEvents : Line → List Event
  | .wrFosc n => [.access (.write 0x02 n)]
  | .wrOpa n => [.access (.write 0x03 n)]
  | .wrOpb n => [.access (.write 0x04 n)]
  | .wrb i n => [.access (.write (0x20 + i) n)]
  | .command i => [.access (.write 0x00 (encode i).toNat)]
  | .cmd n => [.access (.write 0x00 n)]
  | .rdStatus => [.access (.read 0x01)]
  | .rdFosc => [.access (.read 0x02)]
  | .rdOpa => [.access (.read 0x03)]
  | .rdOpb => [.access (.read 0x04)]
  | .rdRes => [.access (.read 0x05)]
  | .rdMeas => [.access (.read 0x06)]
  | .rdb i => [.access (.read (0x20 + i))]
  | .mov t => [.mov t]
  | .ldblk bytes => blockWrites 0 bytes
  | .chk => [.chk]

/-- The events of a listing, its lines strictly in order (R70). -/
def listingEvents (lines : List Line) : List Event :=
  lines.flatMap lineEvents

/-- The host takes up a listing after what it has already to do. -/
def State.withListing (s : State) (lines : List Line) : State :=
  { s with pending := s.pending ++ listingEvents lines }

end Sys2Proof.Machine
end

