-- ==== Sys2Proof/WellFormed.lean ====
section
/-! DEFINITION. Well-formedness: which host accesses the spec gives a meaning (the complement of 20_memory.md R45), which listing lines are
within their bounds (30_encoding.md R68, R69), and the instructions, which have no field to check (R60). -/

namespace Sys2Proof

/-- Every command is well formed: it has no operand field (R60). -/
def Instr.wf : Instr → Bool
  | .macrop => true
  | .us2mclk => true
  | .encto => true
  | .decto => true
  | .gainc => true
  | .unpack => true

namespace Machine

/-- A host access with a meaning: a read of a readable location, or a write of a fitting value to a writable one (R41, R45). -/
def HostAccess.wf : HostAccess → Bool
  | .read a => (locAt a).any hostReadable
  | .write a v => (locAt a).any fun l => hostWritable l && decide (v < 2 ^ widthOf l)

/-- An event with a meaning. -/
def Event.wf : Event → Bool
  | .access h => h.wf
  | .mov _ => true
  | .chk => true
  | .reset => true

/-- A listing line within the bounds of R68 and R69; `LDBLK` takes exactly 17 bytes. -/
def Line.wf : Line → Bool
  | .wrFosc n => decide (n < 2 ^ 16)
  | .wrOpa n => decide (n < 2 ^ 32)
  | .wrOpb n => decide (n < 2 ^ 32)
  | .wrb i n => decide (i ≤ 16) && decide (n < 2 ^ 8)
  | .command i => i.wf
  | .cmd n => decide (n < 2 ^ 8)
  | .rdStatus => true
  | .rdFosc => true
  | .rdOpa => true
  | .rdOpb => true
  | .rdRes => true
  | .rdMeas => true
  | .rdb i => decide (i ≤ 16)
  | .mov _ => true
  | .ldblk bytes => decide (bytes.length = Config.rawBlockBytes) && bytes.all fun b => decide (b < 2 ^ 8)
  | .chk => true

end Machine

end Sys2Proof
end

