-- ==== Sys2Proof/Safety.lean ====
section
/-! DEFINITION. The terms claims use: the machine's invariant, when a result may be used (60_exceptions.md R148), canonical codes
(40_timing_calculator.md R101), the composite of R103, and the agreement predicates of R86 and R90 that
93_implementation_defined.md U6 asks a model to expose, with the 32-bit wrapping reading they speak of, which is NOT the block's. -/

namespace Sys2Proof.Machine

/-- STATUS holds a legal value (10_state.md R25): bits 7:3 are 0 and ERR is 0 to 4. -/
abbrev statusLegal (status : Byte) : Prop :=
  status.toNat ≤ 4

/-- The invariant every step keeps: STATUS is legal and RB is in its canonical form. -/
abbrev StateInv (s : State) : Prop :=
  statusLegal s.status ∧ s.rb.wf = true

/-- The host may use RES or MEAS of the last command: STATUS reads 0 (R148, 70_reset_and_hazards.md R178). -/
abbrev resultUsable (s : State) : Prop :=
  statusValue s = 0

/-- A canonical code (R101): exponent 0, or exponent 1 to 24 with bit 7 of the mantissa set. -/
abbrev canonicalCode (c : Nat) : Prop :=
  exponentOf c = 0 ∨ (1 ≤ exponentOf c ∧ exponentOf c ≤ 24 ∧ 128 ≤ mantissaOf c)

/-- `encode_budget(t, v, f)` of R103, for `f ≠ 0`. -/
def encodeBudget (t v f : Nat) : Nat :=
  encodeTimeout (usToMclks t (macroPeriod v f))

/-- `k` steps, stopping at the first refusal or fault: the terms in which R103's host sequence is stated. -/
def runSteps : Nat → State → Host.Outcome State Fault Refusal
  | 0, s => .next s
  | k + 1, s =>
    match step s with
    | .next t => runSteps k t
    | .fault r => .fault r
    | .refused r => .refused r

/-- A value reduced modulo 2^32, as the reading that decision D5 does not adopt would have it. -/
def wrap32 (n : Nat) : Nat :=
  n % 2 ^ 32

/-- R86's other reading of MACROP: each product wraps at 32 bits. Not the block's. -/
def macroPeriodWrapped (v f : Nat) : Nat :=
  if f = 0 then 0
  else wrap32 ((wrap32 (Config.macroMultiplier * pllPeriodUs f) >>> 6) * vcselPeriodPclks v) >>> 6

/-- R90's other reading of US2MCLK: the shifted numerator and its sum wrap at 32 bits. Not the block's. -/
def usToMclksWrapped (t mp : Nat) : Nat :=
  wrap32 (wrap32 (t <<< 12) + mp / 2) / mp

/-- R86's agreement set: on these operands the value of MACROP does not rest on decision D5. -/
abbrev macropAgrees (v f : Nat) : Prop :=
  1 ≤ f ∧ 2304 * (2 ^ 30 / f) < 2 ^ 32 ∧ 36 * (2 ^ 30 / f) * 2 * (v + 1) < 2 ^ 32

/-- R90's agreement set: on these operands the value of US2MCLK does not rest on decision D5. -/
abbrev us2mclkAgrees (t mp : Nat) : Prop :=
  t * 2 ^ 12 + mp / 2 < 2 ^ 32

end Sys2Proof.Machine
end

