-- ==== Sys2Proof/Certificates/Slice0/Obligations.lean ====
section
/-! DEFINITION. The statements of this row, from the numbered rules of spec/. Each docstring names its rule. -/

open Sys2Proof Sys2Proof.Machine

/-! ### Reset and the invariant -/

/-- R34: after reset every item of state is zero. CMD holds nothing: it has no field. -/
def Obligations.ResetLeavesEveryItemZero : Prop :=
  State.reset.status = 0 ∧ State.reset.fosc = 0 ∧ State.reset.opa = 0 ∧ State.reset.opb = 0 ∧
  State.reset.res = 0 ∧ State.reset.meas = 0 ∧ (∀ i, i ≤ 16 → State.reset.rb.read i = 0) ∧
  (∀ l, l ≠ Loc.cmd → hostRead (addressOf l) State.reset = .ok 0)

/-- The invariant of StepKeepsInv holds at reset (R34). -/
def Obligations.ResetMeetsInv : Prop :=
  StateInv State.reset

/-- Every step keeps the invariant: STATUS is legal (R25: bits 7:3 are 0, ERR is 0 to 4) and RB is in its canonical form. -/
def Obligations.StepKeepsInv : Prop :=
  ∀ s t : State, StateInv s → step s = .next t → StateInv t

/-- A machine whose pending events are all well formed is never refused, and its pending events stay well formed (R45, R159). -/
def Obligations.WellFormedEventsNeverStop : Prop :=
  ∀ s : State, s.pending.all Event.wf = true →
    ∃ t, step s = .next t ∧ t.pending.all Event.wf = true

/-- R170: the reset line sets the block's items to R34's values. That it is an event of the pending list and leaves the host's list and
read values alone is the model's choice (notes/assumptions/5.md). -/
def Obligations.ResetLineResetsBlock : Prop :=
  ∀ (s : State) (rest : List Event), s.pending = .reset :: rest →
    step s = .next { State.reset with pending := rest, returned := s.returned }

/-- R157: with no event the block holds its state. That such a step is a next state is the model's reading (notes/assumptions/3.md). -/
def Obligations.IdleBlockHoldsState : Prop :=
  ∀ s : State, s.pending = [] → step s = .next s

/-! ### The host port -/

/-- R42: a fitting write of FOSC, OPA, OPB or RB[i] stores the value and changes nothing else. RB is taken in its canonical form,
which StepKeepsInv says no step leaves. -/
def Obligations.HostWriteStores : Prop :=
  ∀ (s : State) (v : Nat),
    (v < 2 ^ 16 → hostWrite 0x02 v s = .next { s with fosc := BitVec.ofNat 16 v }) ∧
    (v < 2 ^ 32 → hostWrite 0x03 v s = .next { s with opa := BitVec.ofNat 32 v }) ∧
    (v < 2 ^ 32 → hostWrite 0x04 v s = .next { s with opb := BitVec.ofNat 32 v }) ∧
    (∀ i, s.rb.wf = true → i ≤ 16 → v < 2 ^ 8 → ∃ m : Memory, m.wf = true ∧
      hostWrite (0x20 + i) v s = .next { s with rb := m } ∧
      ∀ j, m.read j = if j = i then BitVec.ofNat 8 v else s.rb.read j)

/-- R44: a read of a readable location gives its current value and leaves the machine as it was, but for the list in which the host keeps
the values it read (whose content the statement leaves open). -/
def Obligations.HostReadGivesValue : Prop :=
  ∀ (s : State) (a n : Nat),
    (a = 0x01 ∧ n = s.status.toNat % 8 ∨ a = 0x02 ∧ n = s.fosc.toNat ∨ a = 0x03 ∧ n = s.opa.toNat ∨
     a = 0x04 ∧ n = s.opb.toNat ∨ a = 0x05 ∧ n = s.res.toNat ∨ a = 0x06 ∧ n = s.meas.toNat ∨
     ∃ i, i ≤ 16 ∧ a = 0x20 + i ∧ n = (s.rb.read i).toNat) →
    hostRead a s = .ok n ∧ ∃ q, perform (.access (.read a)) s = .next { s with returned := q }

/-- The value a read returned is the last the host has noted, after all it had noted before (R173; the model's choice,
notes/assumptions/2.md), and the access is taken off the pending list (notes/assumptions/1.md). -/
def Obligations.HostNotesReadValues : Prop :=
  ∀ (s : State) (rest : List Event) (a n : Nat), s.pending = .access (.read a) :: rest →
    hostRead a { s with pending := rest } = .ok n →
    step s = .next { s with pending := rest, returned := s.returned ++ [n] }

/-- R25: STATUS bits 7:3 read as 0 and bits 2:0 are ERR, in every state, and reading clears nothing (the next read gives the same). -/
def Obligations.StatusReadsHardwiredBitsZero : Prop :=
  ∀ s : State, ∃ n, hostRead 0x01 s = .ok n ∧ n < 8 ∧ n = (errField s.status).toNat

/-- R45: exactly the accesses of R45's list are refused, whatever the state. -/
def Obligations.RefusedAccessesAreThoseOfTheList : Prop :=
  (∀ (s : State) (a : Nat), (∃ r, perform (.access (.read a)) s = .refused r) ↔
    (a = 0x00 ∨ (0x07 ≤ a ∧ a ≤ 0x1F) ∨ 0x31 ≤ a)) ∧
  (∀ (s : State) (a v : Nat), (∃ r, perform (.access (.write a v)) s = .refused r) ↔
    (a = 0x01 ∨ a = 0x05 ∨ a = 0x06 ∨ (0x07 ≤ a ∧ a ≤ 0x1F) ∨ 0x31 ≤ a ∨
     (a = 0x00 ∧ 2 ^ 8 ≤ v) ∨ (a = 0x02 ∧ 2 ^ 16 ≤ v) ∨ (a = 0x03 ∧ 2 ^ 32 ≤ v) ∨ (a = 0x04 ∧ 2 ^ 32 ≤ v) ∨
     (0x20 ≤ a ∧ a ≤ 0x30 ∧ 2 ^ 8 ≤ v)))

/-- The well-formedness check rejects exactly the accesses the port refuses (R45). -/
def Obligations.WellFormedIffNotRefused : Prop :=
  ∀ (h : HostAccess) (s : State), h.wf = false ↔ ∃ r, perform (.access h) s = .refused r

/-- Every line within its bounds (R68, R69) stands for well-formed accesses only. -/
def Obligations.WellFormedLinesGiveWellFormedEvents : Prop :=
  ∀ l : Line, l.wf = true → (lineEvents l).all Event.wf = true

/-- R69's MOV: after its two accesses the target holds RES, and the host has noted the value. That the two accesses are two steps is the
model's choice (notes/assumptions/7.md). -/
def Obligations.MovCarriesResult : Prop :=
  ∀ (s : State) (rest : List Event),
    (s.pending = .mov .opa :: rest → runSteps 2 s =
      .next { s with opa := s.res, pending := rest, returned := s.returned ++ [s.res.toNat] }) ∧
    (s.pending = .mov .opb :: rest → runSteps 2 s =
      .next { s with opb := s.res, pending := rest, returned := s.returned ++ [s.res.toNat] })

/-- R69's CHK: the host goes on only if STATUS reads 0; otherwise its listing ends and the code is what it noted. That a reset still to
come stays is the model's choice (notes/assumptions/6.md). -/
def Obligations.ChkStopsOnErrorCode : Prop :=
  ∀ (s : State) (rest : List Event), s.pending = .chk :: rest →
    (errField s.status = 0 → step s = .next { s with pending := rest, returned := s.returned ++ [0] }) ∧
    (errField s.status ≠ 0 → ∃ resets, step s =
        .next { s with pending := resets, returned := s.returned ++ [(errField s.status).toNat] } ∧
      ∀ e, e ∈ resets ↔ (e ∈ rest ∧ e = .reset))

/-! ### Decoding and the step -/

/-- R62: the six command words, and the first and last reserved ones around them (R65). -/
def Obligations.CommandWordsDecode : Prop :=
  decode 0b00000001 = .ok .macrop ∧ decode 0b00000010 = .ok .us2mclk ∧ decode 0b00000011 = .ok .encto ∧
  decode 0b00000100 = .ok .decto ∧ decode 0b00000101 = .ok .gainc ∧ decode 0b00000110 = .ok .unpack ∧
  decode 0b00000000 = .error (.reservedCode 0) ∧ decode 0b00000111 = .error (.reservedCode 7) ∧
  decode 0b11111111 = .error (.reservedCode 255)

/-- Decoding and encoding agree: a command value decodes to an instruction exactly when it is that instruction's code (R61, R62). -/
def Obligations.DecodeEncodeAgree : Prop :=
  ∀ (c : Byte) (i : Instr), decode c = .ok i ↔ c = encode i

/-- A step on a CMD write of a value that decodes to a well-formed instruction is exec of it, the write taken off the list (R43, R60). -/
def Obligations.StepRunsDecodedCommand : Prop :=
  ∀ (s : State) (rest : List Event) (c : Nat) (i : Instr),
    s.pending = .access (.write 0x00 c) :: rest → c < 2 ^ 8 → decode (BitVec.ofNat 8 c) = .ok i → i.wf = true →
    step s = exec i { s with pending := rest }

/-- R67: execution of `HostWrite(0x00, c)`; every one of the 256 values has a defined effect. -/
def Obligations.CommandWriteFollowsDecoder : Prop :=
  ∀ (s : State) (c : Nat), c < 256 →
    hostWrite 0x00 c s =
      (if c = 0x01 then exec .macrop s
       else if c = 0x02 then exec .us2mclk s
       else if c = 0x03 then exec .encto s
       else if c = 0x04 then exec .decto s
       else if c = 0x05 then exec .gainc s
       else if c = 0x06 then exec .unpack s
       else .next { s with status := 1 }) ∧
    ∃ t, hostWrite 0x00 c s = .next t

/-- R65, R141: a reserved code sets STATUS.ERR to 1 and changes nothing else. -/
def Obligations.ReservedCodesReportIllegalCmd : Prop :=
  ∀ (s : State) (c : Nat), (c = 0 ∨ (7 ≤ c ∧ c ≤ 0xFF)) → hostWrite 0x00 c s = .next { s with status := 1 }

/-- R43: a CMD write is idempotent in its effect on state: the second execution writes what the first wrote. -/
def Obligations.CommandWriteIdempotent : Prop :=
  ∀ (s t : State) (c : Nat), hostWrite 0x00 c s = .next t → hostWrite 0x00 c t = .next t

/-! ### MACROP -/

/-- R81, R82: MACROP's three outcomes, the function it computes, its corner cases and its worked example. -/
def Obligations.MacropOutcome : Prop :=
  (∀ s : State,
    (2 ^ 8 ≤ s.opa.toNat → exec .macrop s = .next { s with status := 2 }) ∧
    (s.opa.toNat < 2 ^ 8 → 2 ^ 32 ≤ macroPeriod s.opa.toNat s.fosc.toNat →
      exec .macrop s = .next { s with status := 4 }) ∧
    (s.opa.toNat < 2 ^ 8 → macroPeriod s.opa.toNat s.fosc.toNat < 2 ^ 32 →
      exec .macrop s =
        .next { s with res := BitVec.ofNat 32 (macroPeriod s.opa.toNat s.fosc.toNat), status := 0 })) ∧
  (∀ v, macroPeriod v 0 = 0) ∧
  (∀ v f, f ≠ 0 → macroPeriod v f = (((2304 * (2 ^ 30 / f)) >>> 6) * ((v + 1) * 2)) >>> 6) ∧
  (∀ v f, v < 2 ^ 8 → 1 ≤ f → f < 2 ^ 16 → 18432 ≤ macroPeriod v f) ∧
  macroPeriod 3 1 = 4831838208 ∧ macroPeriod 7 256 = 37748736

/-- R150: MACROP with FOSC = 0 and a fitting OPA succeeds with 0; with an over-wide OPA it is BAD_OPERAND all the same (R82 (a)); and the
sentinel used as a macro period is DIV_ZERO (R143). -/
def Obligations.ZeroFrequencyGivesSentinel : Prop :=
  ∀ s : State,
    (s.fosc = 0 → s.opa.toNat < 2 ^ 8 → exec .macrop s = .next { s with res := 0, status := 0 }) ∧
    (s.fosc = 0 → 2 ^ 8 ≤ s.opa.toNat → exec .macrop s = .next { s with status := 2 }) ∧
    (s.opb = 0 → exec .us2mclk s = .next { s with status := 3 })

/-- R83: the closed form of the macro period, for every frequency from 1 on; the two shifts by 6 give what one shift by 12 would. -/
def Obligations.MacroPeriodClosedForm : Prop :=
  ∀ v f : Nat, 1 ≤ f → macroPeriod v f = (9 * (2 ^ 30 / f) * (v + 1)) / 8 ∧
    macroPeriod v f = (2304 * (2 ^ 30 / f) * ((v + 1) * 2)) >>> 12

/-- R84: the range of MACROP's results. -/
def Obligations.MacroPeriodRange : Prop :=
  (∀ v f : Nat, v ≤ 255 → 1 ≤ f → f ≤ 65535 →
    18432 ≤ macroPeriod v f ∧ macroPeriod v f ≤ 309237645312 ∧
    (macroPeriod v f < 2 ^ 32 ↔ 9 * (2 ^ 30 / f) * (v + 1) / 8 < 2 ^ 32) ∧
    (72 ≤ f → macroPeriod v f < 2 ^ 32) ∧ (3 ≤ f → macroPeriod 7 f < 2 ^ 32) ∧
    (macroPeriod 255 f < 2 ^ 32 → macroPeriod 255 f ≤ 4294967040)) ∧
  (∀ v f : Nat, v ≤ 255 → f ≤ 65535 → (macroPeriod v f = 0 ↔ f = 0)) ∧
  (∀ v : Nat, v ≤ 255 → (macroPeriod v 1 < 2 ^ 32 ↔ v ≤ 2)) ∧
  2 ^ 30 / 65535 = 16384 ∧ macroPeriod 0 65535 = 18432 ∧ macroPeriod 255 1 = 309237645312 ∧
  macroPeriod 255 72 = 4294967040 ∧ macroPeriod 255 71 = 4355459712 ∧ macroPeriod 7 3 = 3221225469 ∧
  macroPeriod 7 2 = 4831838208 ∧ macroPeriod 2 1 = 3623878656

/-- R85: the sizes of MACROP's intermediates. -/
def Obligations.MacroIntermediateSizes : Prop :=
  ∀ v f : Nat, v ≤ 255 → 1 ≤ f → f ≤ 65535 →
    16384 ≤ pllPeriodUs f ∧ pllPeriodUs f ≤ 2 ^ 30 ∧
    2 ≤ vcselPeriodPclks v ∧ vcselPeriodPclks v ≤ 512 ∧
    macroT1 f ≤ 2304 * 2 ^ 30 ∧ macroT1 f < 2 ^ 42 ∧
    macroT2 f ≤ 36 * 2 ^ 30 ∧ macroT2 f < 2 ^ 36 ∧
    macroT3 v f ≤ 18432 * 2 ^ 30 ∧ macroT3 v f < 2 ^ 45 ∧ macroPeriod v f < 2 ^ 39

/-- R86: where a 32-bit wrapping accumulator gives the same macro period, and that outside that set it gives another. -/
def Obligations.MacroPeriodWrappingAgreement : Prop :=
  (∀ v f : Nat, 1 ≤ f → (macroPeriodWrapped v f = macroPeriod v f ↔ macropAgrees v f)) ∧
  (∀ f : Nat, 1 ≤ f → (2304 * (2 ^ 30 / f) < 2 ^ 32 ↔ 576 ≤ f) ∧
    (2304 * (2 ^ 30 / f) < 2 ^ 32 ↔ 2 ^ 30 / f ≤ 1864135)) ∧
  (∀ v f : Nat, 576 ≤ f → v ≤ 31 → 36 * (2 ^ 30 / f) * 2 * (v + 1) < 2 ^ 32) ∧
  macroPeriod 7 256 = 37748736 ∧ macroPeriodWrapped 7 256 = 4194304

/-! ### US2MCLK -/

/-- R87, R88: US2MCLK's three outcomes, the function it computes, its corner cases and its worked example. -/
def Obligations.Us2mclkOutcome : Prop :=
  (∀ s : State,
    (s.opb = 0 → exec .us2mclk s = .next { s with status := 3 }) ∧
    (s.opb ≠ 0 → 2 ^ 32 ≤ (s.opa.toNat * 2 ^ 12 + s.opb.toNat / 2) / s.opb.toNat →
      exec .us2mclk s = .next { s with status := 4 }) ∧
    (s.opb ≠ 0 → (s.opa.toNat * 2 ^ 12 + s.opb.toNat / 2) / s.opb.toNat < 2 ^ 32 →
      exec .us2mclk s =
        .next { s with res := BitVec.ofNat 32 ((s.opa.toNat * 2 ^ 12 + s.opb.toNat / 2) / s.opb.toNat), status := 0 })) ∧
  (∀ t mp, 1 ≤ mp → usToMclks t mp = ((t <<< 12) + mp / 2) / mp) ∧ (∀ mp, 1 ≤ mp → usToMclks 0 mp = 0) ∧
  (∀ t mp, t < 2 ^ 32 → mp < 2 ^ 32 → t * 2 ^ 12 + mp / 2 < 2 ^ 45) ∧
  (∀ t mp, t < 2 ^ 32 → 18432 ≤ mp → usToMclks t mp ≤ 954437177) ∧
  usToMclks (2 ^ 32 - 1) 18432 = 954437177 ∧ usToMclks 1 8192 = 1 ∧ usToMclks 1 8193 = 0 ∧
  usToMclks (2 ^ 20) 1 = 2 ^ 32 ∧ usToMclks (2 ^ 20 - 1) 1 = 4294963200 ∧ usToMclks 10000 199935 = 205

/-- R89: rounding to the nearest integer, a quotient exactly halfway going up; for odd `mp` there is no halfway case. -/
def Obligations.UsToMclksRoundsToNearest : Prop :=
  ∀ t mp : Nat, 1 ≤ mp →
    2 * (usToMclks t mp) * mp ≤ 2 * (4096 * t) + mp ∧ 2 * (4096 * t) + mp < 2 * (usToMclks t mp + 1) * mp ∧
    (mp % 2 = 1 → mp / 2 = (mp - 1) / 2 ∧ ∀ k, 2 * (4096 * t) ≠ (2 * k + 1) * mp)

/-- R90: when the result fits, and exactly where a 32-bit wrapping accumulator gives the same value. -/
def Obligations.UsToMclksRangeAndAgreement : Prop :=
  (∀ t mp : Nat, 1 ≤ mp → 4096 * t + mp / 2 < mp * 2 ^ 32 → usToMclks t mp < 2 ^ 32) ∧
  (∀ t mp : Nat, 4096 ≤ mp → t < 2 ^ 32 → usToMclks t mp < 2 ^ 32) ∧
  usToMclks (2 ^ 32 - 1) 4096 = 2 ^ 32 - 1 ∧
  (∀ t mp : Nat, 1 ≤ mp → mp < 2 ^ 32 → (usToMclksWrapped t mp = usToMclks t mp ↔ us2mclkAgrees t mp)) ∧
  (∀ t mp : Nat, us2mclkAgrees t mp → t < 2 ^ 20) ∧
  usToMclks (2 ^ 32 - 1) 18432 = 954437177 ∧ usToMclksWrapped (2 ^ 32 - 1) 18432 = 0

/-! ### ENCTO and DECTO -/

/-- R92: ENCTO always succeeds, its result fits 16 bits, its corner cases and its worked example. -/
def Obligations.EnctoOutcome : Prop :=
  (∀ s : State, exec .encto s =
    .next { s with res := BitVec.ofNat 32 (encodeTimeout s.opa.toNat), status := 0 } ∧
    encodeTimeout s.opa.toNat < 2 ^ 16) ∧
  encodeTimeout 0 = 0 ∧ encodeTimeout 1 = 0 ∧ encodeTimeout 256 = 0x00FF ∧ encodeTimeout 257 = 0x0180 ∧
  encodeTimeout 258 = 0x0180 ∧ decodeTimeout 0x0180 = 257 ∧ encodeTimeout (2 ^ 32 - 1) = 0x18FF ∧
  decodeTimeout 0x18FF = 0xFF000001 ∧ encodeTimeout 512 = 0x01FF ∧ decodeTimeout 0x01FF = 511 ∧
  encodeTimeout 273 = 0x0188

/-- R91: 0 for 0; otherwise the smallest exponent under which `x - 1` fits 8 bits, and the value shifted by it. -/
def Obligations.EncodeTakesSmallestExponent : Prop :=
  encodeTimeout 0 = 0 ∧
  ∀ x : Nat, x ≠ 0 → ∃ e : Nat, (x - 1) / 2 ^ e ≤ 255 ∧ (∀ k, k < e → 255 < (x - 1) / 2 ^ k) ∧
    encodeTimeout x = (e <<< 8) ||| ((x - 1) >>> e)

/-- R93: the closed form of the encoder by bit length. -/
def Obligations.EncodeClosedForm : Prop :=
  ∀ x : Nat, 1 ≤ x → encodeTimeout x =
    (max 0 (bitlen (x - 1) - 8)) * 256 + (x - 1) / 2 ^ (max 0 (bitlen (x - 1) - 8))

/-- R94, R95: DECTO's three outcomes, the function it computes, its corner cases and its worked example. -/
def Obligations.DectoOutcome : Prop :=
  (∀ s : State,
    (2 ^ 16 ≤ s.opa.toNat → exec .decto s = .next { s with status := 2 }) ∧
    (s.opa.toNat < 2 ^ 16 → 2 ^ 32 ≤ decodeTimeout s.opa.toNat → exec .decto s = .next { s with status := 4 }) ∧
    (s.opa.toNat < 2 ^ 16 → decodeTimeout s.opa.toNat < 2 ^ 32 →
      exec .decto s = .next { s with res := BitVec.ofNat 32 (decodeTimeout s.opa.toNat), status := 0 })) ∧
  (∀ c, c < 2 ^ 16 → decodeTimeout c = (c % 256) * 2 ^ (c / 256) + 1) ∧
  (∀ c, decodeTimeout c ≠ 0) ∧ (∀ c, mantissaOf c = 0 → decodeTimeout c = 1) ∧
  (∀ c, c < 2 ^ 16 → (2 ^ 32 ≤ decodeTimeout c ↔ mantissaOf c ≠ 0 ∧ 32 < bitlen (mantissaOf c) + exponentOf c)) ∧
  (∀ c, c < 2 ^ 16 → decodeTimeout c < 2 ^ 32 → decodeTimeout c ≤ 0xFF000001) ∧
  decodeTimeout 0x0000 = 1 ∧ decodeTimeout 0xFF00 = 1 ∧ decodeTimeout 0x18FF = 0xFF000001 ∧
  decodeTimeout 0x197F = 0xFE000001 ∧ decodeTimeout 0x1980 = 2 ^ 32 + 1 ∧ decodeTimeout 0x1F01 = 0x80000001 ∧
  2 ^ 32 ≤ decodeTimeout 0x1F02 ∧ 2 ^ 32 ≤ decodeTimeout 0x2001 ∧ decodeTimeout 0x0A05 = 5121 ∧
  decodeTimeout 0x0188 = 273

/-- R80, R94: a code with exponent `e` and mantissa `m` stands for `(m << e) + 1`. -/
def Obligations.DecodeOfFields : Prop :=
  ∀ e m : Nat, e ≤ 255 → m ≤ 255 →
    exponentOf (e * 256 + m) = e ∧ mantissaOf (e * 256 + m) = m ∧ decodeTimeout (e * 256 + m) = m * 2 ^ e + 1

/-- R96: when a decoded value fits 32 bits, and how many codes do. -/
def Obligations.DecodeFitsExactlyWhen : Prop :=
  (∀ c : Nat, c < 2 ^ 16 →
    (decodeTimeout c < 2 ^ 32 ↔ mantissaOf c = 0 ∨ bitlen (mantissaOf c) + exponentOf c ≤ 32)) ∧
  (∀ c : Nat, 1 ≤ decodeTimeout c) ∧
  ((Finset.range 65536).filter fun c => decodeTimeout c < 2 ^ 32).card = 6878

/-- R97: the round trip from clocks to a code and back, with the exact loss. -/
def Obligations.RoundTripFromClocks : Prop :=
  ∀ x : Nat, 1 ≤ x → x < 2 ^ 32 →
    decodeTimeout (encodeTimeout x) =
      (((x - 1) >>> exponentOf (encodeTimeout x)) <<< exponentOf (encodeTimeout x)) + 1 ∧
    decodeTimeout (encodeTimeout x) ≤ x ∧
    x - decodeTimeout (encodeTimeout x) = (x - 1) % 2 ^ exponentOf (encodeTimeout x) ∧
    x - decodeTimeout (encodeTimeout x) < 2 ^ exponentOf (encodeTimeout x) ∧
    (decodeTimeout (encodeTimeout x) = x ↔ (x - 1) % 2 ^ exponentOf (encodeTimeout x) = 0) ∧
    (x ≤ 256 → decodeTimeout (encodeTimeout x) = x ∧ exponentOf (encodeTimeout x) = 0) ∧
    (∀ c, c < 2 ^ 16 → decodeTimeout c = x → decodeTimeout (encodeTimeout x) = x)

/-- R80, R98: the code 0 is produced for the inputs 0 and 1 only, and encoding and decoding are not inverses at 0. -/
def Obligations.SentinelIsNotInverse : Prop :=
  (∀ x, encodeTimeout x = 0 ↔ x ≤ 1) ∧ encodeTimeout 0 = 0 ∧ encodeTimeout 1 = 0 ∧ decodeTimeout 0 = 1 ∧ decodeTimeout (encodeTimeout 0) ≠ 0

/-- R99: the range of the encoder's output for 32-bit input. -/
def Obligations.EncoderOutputRange : Prop :=
  ∀ x : Nat, 1 ≤ x → x < 2 ^ 32 →
    exponentOf (encodeTimeout x) ≤ 24 ∧
    (exponentOf (encodeTimeout x) = 0 ↔ x ≤ 256) ∧
    (1 ≤ exponentOf (encodeTimeout x) → 128 ≤ mantissaOf (encodeTimeout x) ∧ mantissaOf (encodeTimeout x) ≤ 255 ∧
      bitlen (x - 1) = exponentOf (encodeTimeout x) + 8) ∧
    (exponentOf (encodeTimeout x) = 24 ↔ 2 ^ 31 + 1 ≤ x) ∧
    encodeTimeout x ≤ 0x18FF ∧ (encodeTimeout x = 0x18FF ↔ 0xFF000001 ≤ x)

/-- R100: the round trip from a code to clocks and back is exact on the canonical codes, and gives the canonical code of the same value
on the others. -/
def Obligations.RoundTripFromCode : Prop :=
  (∀ c : Nat, c < 2 ^ 16 → decodeTimeout c < 2 ^ 32 →
    (encodeTimeout (decodeTimeout c) = c ↔ canonicalCode c) ∧
    canonicalCode (encodeTimeout (decodeTimeout c)) ∧
    decodeTimeout (encodeTimeout (decodeTimeout c)) = decodeTimeout c ∧
    (mantissaOf c = 0 → encodeTimeout (decodeTimeout c) = 0)) ∧
  decodeTimeout 0x0A05 = 5121 ∧ encodeTimeout 5121 = 0x05A0 ∧ decodeTimeout 0x05A0 = 5121

/-- R101: the canonical codes are those ENCTO produces; there are 3328; decoding them is strictly increasing. -/
def Obligations.CanonicalCodesAreTheEncoders : Prop :=
  (∀ c : Nat, c < 2 ^ 16 → (canonicalCode c ↔ ∃ x, x < 2 ^ 32 ∧ encodeTimeout x = c)) ∧
  ((Finset.range 65536).filter fun c => canonicalCode c).card = 3328 ∧
  (∀ c d : Nat, c < d → d < 2 ^ 16 → canonicalCode c → canonicalCode d → decodeTimeout c < decodeTimeout d)

/-- R102: the encoder is monotone. -/
def Obligations.EncodeMonotone : Prop :=
  ∀ x y : Nat, x ≤ y → y < 2 ^ 32 → encodeTimeout x ≤ encodeTimeout y

/-- R103: the host's sequence for one sub-timeout ends with the composite in RES, for every state it starts from, when MACROP has no error.
The ten steps are its eight lines, each MOV being two accesses. -/
def Obligations.BudgetSequenceGivesComposite : Prop :=
  ∀ (s : State) (v t : Nat) (rest : List Event),
    s.pending = [.access (.write 0x03 v), .access (.write 0x00 0x01), .mov .opb, .access (.write 0x03 t),
      .access (.write 0x00 0x02), .mov .opa, .access (.write 0x00 0x03), .access (.read 0x05)] ++ rest →
    v < 2 ^ 8 → t < 2 ^ 32 → s.fosc ≠ 0 → macroPeriod v s.fosc.toNat < 2 ^ 32 →
    runSteps 10 s = .next { s with
      opa := BitVec.ofNat 32 (usToMclks t (macroPeriod v s.fosc.toNat))
      opb := BitVec.ofNat 32 (macroPeriod v s.fosc.toNat)
      res := BitVec.ofNat 32 (encodeBudget t v s.fosc.toNat)
      status := 0
      pending := rest
      returned := s.returned ++ [macroPeriod v s.fosc.toNat, usToMclks t (macroPeriod v s.fosc.toNat),
        encodeBudget t v s.fosc.toNat] }

/-! ### GAINC and UNPACK -/

/-- R122: GAINC's two outcomes, its corner cases and its worked example. -/
def Obligations.GaincOutcome : Prop :=
  (∀ s : State,
    (2 ^ 16 ≤ s.opa.toNat → exec .gainc s = .next { s with status := 2 }) ∧
    (s.opa.toNat < 2 ^ 16 → exec .gainc s =
      .next { s with res := BitVec.ofNat 32 ((s.opa.toNat * 2011 + 1024) / 2 ^ 11), status := 0 } ∧
      (s.opa.toNat * 2011 + 1024) / 2 ^ 11 < 2 ^ 16)) ∧
  (∀ r, r ≤ 27 → gainCorrect r = r) ∧ (∀ r, 28 ≤ r → gainCorrect r < r) ∧
  gainCorrect 1 = 1 ∧ gainCorrect 2048 = 2011 ∧ gainCorrect 1024 = 1006 ∧ gainCorrect 28 = 27 ∧
  gainCorrect 65535 = 64351 ∧ gainCorrect 2066 = 2029

/-- R121: the formula, and that it is the nearest integer to `r * 2011 / 2048`, a quotient exactly halfway going up. -/
def Obligations.GainCorrectRoundsToNearest : Prop :=
  ∀ r : Nat, gainCorrect r = (r * 2011 + 1024) >>> 11 ∧ 2 * gainCorrect r * 2048 ≤ 2 * (r * 2011) + 2048 ∧ 2 * (r * 2011) + 2048 < 2 * (gainCorrect r + 1) * 2048

/-- R123: the laws of the gain correction on 16-bit operands. -/
def Obligations.GainCorrectLaws : Prop :=
  (∀ r : Nat, r ≤ 65535 → r * 2011 + 1024 ≤ 131791909 ∧ gainCorrect r ≤ r ∧ gainCorrect r ≤ 64351 ∧
    gainCorrect r < 2 ^ 16 ∧ (gainCorrect r = r ↔ r ≤ 27)) ∧
  (∀ r q : Nat, r ≤ q → q ≤ 65535 → gainCorrect r ≤ gainCorrect q) ∧
  gainCorrect 65535 = 64351 ∧ 131791909 < 2 ^ 27

/-- R125: UNPACK always succeeds and writes the three fields of MEAS and ERR, nothing else. -/
def Obligations.UnpackOutcome : Prop :=
  ∀ s : State, ∃ m : Word, exec .unpack s = .next { s with meas := m, status := 0 } ∧
    measStatusCode m = s.rb.read 0 ∧ measStream m = s.rb.read 2 ∧
    (measDistMm m).toNat = (((s.rb.read 13).toNat * 256 + (s.rb.read 14).toNat) * 2011 + 1024) / 2048 ∧
    m.toNat = (s.rb.read 0).toNat * 2 ^ 24 + (s.rb.read 2).toNat * 2 ^ 16 + (measDistMm m).toNat

/-- R126: UNPACK depends on offsets 0, 2, 13 and 14 only, each field on its own bytes. -/
def Obligations.UnpackFieldsAreIndependent : Prop :=
  ∀ (s : State) (m : Memory) (t u : State),
    exec .unpack s = .next t → exec .unpack { s with rb := m } = .next u →
    ((∀ a, a = 0 ∨ a = 2 ∨ a = 13 ∨ a = 14 → m.read a = s.rb.read a) → u.meas = t.meas) ∧
    ((∀ a, a ≠ 0 → m.read a = s.rb.read a) →
      measStream u.meas = measStream t.meas ∧ measDistMm u.meas = measDistMm t.meas) ∧
    ((∀ a, a ≠ 2 → m.read a = s.rb.read a) →
      measStatusCode u.meas = measStatusCode t.meas ∧ measDistMm u.meas = measDistMm t.meas) ∧
    ((∀ a, a ≠ 13 → a ≠ 14 → m.read a = s.rb.read a) →
      measStatusCode u.meas = measStatusCode t.meas ∧ measStream u.meas = measStream t.meas)

/-- R46: inside RB a field is big-endian, and the final range has RB[13] as its high byte. -/
def Obligations.RawBlockIsBigEndian : Prop :=
  ∀ (m : Memory) (off : Nat), memRead m off 1 = (m.read off).toNat ∧
    memRead m off 2 = ((m.read off).toNat <<< 8) ||| (m.read (off + 1)).toNat ∧
    operandFinalRange m = ((m.read 13).toNat <<< 8) ||| (m.read 14).toNat

/-- Canonical memories with the same bytes are the same list, so equal states are equal data. -/
def Obligations.CanonicalMemoriesAreEqual : Prop :=
  ∀ m n : Memory, m.wf = true → n.wf = true → (∀ a, m.read a = n.read a) → m = n

/-! ### Errors, frames, and what a command may depend on -/

/-- R140, R145: the error code a command reports, the first cause in the order ILLEGAL_CMD, BAD_OPERAND, DIV_ZERO, RANGE; 0 with none. -/
def Obligations.ErrorCodeFollowsPriority : Prop :=
  ∀ (s t : State) (c : Nat), hostWrite 0x00 c s = .next t →
    t.status =
      (if c = 0 ∨ 7 ≤ c then 1
       else if (c = 1 ∧ 2 ^ 8 ≤ s.opa.toNat) ∨ (c = 4 ∧ 2 ^ 16 ≤ s.opa.toNat) ∨ (c = 5 ∧ 2 ^ 16 ≤ s.opa.toNat) then 2
       else if c = 2 ∧ s.opb = 0 then 3
       else if (c = 1 ∧ 2 ^ 32 ≤ macroPeriod s.opa.toNat s.fosc.toNat) ∨
          (c = 2 ∧ 2 ^ 32 ≤ usToMclks s.opa.toNat s.opb.toNat) ∨ (c = 4 ∧ 2 ^ 32 ≤ decodeTimeout s.opa.toNat) then 4
       else 0)

/-- R146: a failed command is a command that changed only STATUS. -/
def Obligations.FailedCommandChangesOnlyStatus : Prop :=
  ∀ (s t : State) (c : Nat), hostWrite 0x00 c s = .next t → t.status ≠ 0 → t = { s with status := t.status }

/-- R25, R147: no command reads ERR, so an old code neither stays nor matters, and STATUS is legal after every command. -/
def Obligations.CommandOverwritesStatus : Prop :=
  ∀ (s : State) (c : Nat) (old : Byte), c < 2 ^ 8 →
    hostWrite 0x00 c { s with status := old } = hostWrite 0x00 c s ∧
    ∃ t, hostWrite 0x00 c s = .next t ∧ t.status.toNat ≤ 4

/-- The frame of all six commands (R20's table, R21 to R23, R26 to R28): FOSC, OPA, OPB, every byte of RB and what is the host's are
unchanged; RES is unchanged by UNPACK and MEAS by every other. -/
def Obligations.CommandFrame : Prop :=
  ∀ (i : Instr) (s t : State), exec i s = .next t →
    t.fosc = s.fosc ∧ t.opa = s.opa ∧ t.opb = s.opb ∧ t.rb = s.rb ∧ (∀ a, t.rb.read a = s.rb.read a) ∧
    t.pending = s.pending ∧ t.returned = s.returned ∧
    (i = .unpack → t.res = s.res) ∧ (i ≠ .unpack → t.meas = s.meas)

/-- R22, R26, R28: only US2MCLK reads OPB, only MACROP reads FOSC, only UNPACK reads RB, and UNPACK does not read OPA (R21): with the item
changed beforehand, every other command does the same to the rest of the state. -/
def Obligations.CommandsIgnoreOtherOperands : Prop :=
  ∀ (i : Instr) (s t : State), exec i s = .next t →
    (∀ b, i ≠ .us2mclk → exec i { s with opb := b } = .next { t with opb := b }) ∧
    (∀ f, i ≠ .macrop → exec i { s with fosc := f } = .next { t with fosc := f }) ∧
    (∀ m, i ≠ .unpack → exec i { s with rb := m } = .next { t with rb := m }) ∧
    (∀ a, i = .unpack → exec i { s with opa := a } = .next { t with opa := a })

/-- R29: no hidden state. What a command does to the block depends on the eight items only, not on RES or MEAS, and not on what the host
has still to do or has read. -/
def Obligations.CommandsHaveNoHiddenState : Prop :=
  ∀ (i : Instr) (s t : State) (r m : Word) (p : List Event) (q : List Nat), exec i s = .next t →
    ∃ u, exec i { s with res := r, meas := m, pending := p, returned := q } = .next u ∧ u.status = t.status ∧
      (u.res = t.res ∨ (u.res = r ∧ t.res = s.res)) ∧ (u.meas = t.meas ∨ (u.meas = m ∧ t.meas = s.meas))
end

