-- ==== Sys2Proof/Laws/State.lean ====
section
/-! SUPPORT. What each update of the state does to each field, so that no later proof unfolds a record update. -/

namespace Sys2Proof.Machine

@[simp] theorem raiseError_status (s : State) (e : Err) : (s.raiseError e).status = statusOf (errCode e) := rfl
@[simp] theorem raiseError_fosc (s : State) (e : Err) : (s.raiseError e).fosc = s.fosc := rfl
@[simp] theorem raiseError_opa (s : State) (e : Err) : (s.raiseError e).opa = s.opa := rfl
@[simp] theorem raiseError_opb (s : State) (e : Err) : (s.raiseError e).opb = s.opb := rfl
@[simp] theorem raiseError_res (s : State) (e : Err) : (s.raiseError e).res = s.res := rfl
@[simp] theorem raiseError_meas (s : State) (e : Err) : (s.raiseError e).meas = s.meas := rfl
@[simp] theorem raiseError_rb (s : State) (e : Err) : (s.raiseError e).rb = s.rb := rfl
@[simp] theorem raiseError_pending (s : State) (e : Err) : (s.raiseError e).pending = s.pending := rfl
@[simp] theorem raiseError_returned (s : State) (e : Err) : (s.raiseError e).returned = s.returned := rfl

@[simp] theorem succeedRes_status (s : State) (r : Nat) : (s.succeedRes r).status = statusOf 0 := rfl
@[simp] theorem succeedRes_fosc (s : State) (r : Nat) : (s.succeedRes r).fosc = s.fosc := rfl
@[simp] theorem succeedRes_opa (s : State) (r : Nat) : (s.succeedRes r).opa = s.opa := rfl
@[simp] theorem succeedRes_opb (s : State) (r : Nat) : (s.succeedRes r).opb = s.opb := rfl
@[simp] theorem succeedRes_res (s : State) (r : Nat) : (s.succeedRes r).res = BitVec.ofNat 32 r := rfl
@[simp] theorem succeedRes_meas (s : State) (r : Nat) : (s.succeedRes r).meas = s.meas := rfl
@[simp] theorem succeedRes_rb (s : State) (r : Nat) : (s.succeedRes r).rb = s.rb := rfl
@[simp] theorem succeedRes_pending (s : State) (r : Nat) : (s.succeedRes r).pending = s.pending := rfl
@[simp] theorem succeedRes_returned (s : State) (r : Nat) : (s.succeedRes r).returned = s.returned := rfl

@[simp] theorem succeedMeas_status (s : State) (m : Word) : (s.succeedMeas m).status = statusOf 0 := rfl
@[simp] theorem succeedMeas_fosc (s : State) (m : Word) : (s.succeedMeas m).fosc = s.fosc := rfl
@[simp] theorem succeedMeas_opa (s : State) (m : Word) : (s.succeedMeas m).opa = s.opa := rfl
@[simp] theorem succeedMeas_opb (s : State) (m : Word) : (s.succeedMeas m).opb = s.opb := rfl
@[simp] theorem succeedMeas_res (s : State) (m : Word) : (s.succeedMeas m).res = s.res := rfl
@[simp] theorem succeedMeas_meas (s : State) (m : Word) : (s.succeedMeas m).meas = m := rfl
@[simp] theorem succeedMeas_rb (s : State) (m : Word) : (s.succeedMeas m).rb = s.rb := rfl
@[simp] theorem succeedMeas_pending (s : State) (m : Word) : (s.succeedMeas m).pending = s.pending := rfl
@[simp] theorem succeedMeas_returned (s : State) (m : Word) : (s.succeedMeas m).returned = s.returned := rfl

@[simp] theorem note_status (s : State) (n : Nat) : (s.note n).status = s.status := rfl
@[simp] theorem note_fosc (s : State) (n : Nat) : (s.note n).fosc = s.fosc := rfl
@[simp] theorem note_opa (s : State) (n : Nat) : (s.note n).opa = s.opa := rfl
@[simp] theorem note_opb (s : State) (n : Nat) : (s.note n).opb = s.opb := rfl
@[simp] theorem note_res (s : State) (n : Nat) : (s.note n).res = s.res := rfl
@[simp] theorem note_meas (s : State) (n : Nat) : (s.note n).meas = s.meas := rfl
@[simp] theorem note_rb (s : State) (n : Nat) : (s.note n).rb = s.rb := rfl
@[simp] theorem note_pending (s : State) (n : Nat) : (s.note n).pending = s.pending := rfl
@[simp] theorem note_returned (s : State) (n : Nat) : (s.note n).returned = s.returned ++ [n] := rfl

@[simp] theorem resetBlock_status (s : State) : (s.resetBlock).status = 0 := rfl
@[simp] theorem resetBlock_fosc (s : State) : (s.resetBlock).fosc = 0 := rfl
@[simp] theorem resetBlock_opa (s : State) : (s.resetBlock).opa = 0 := rfl
@[simp] theorem resetBlock_opb (s : State) : (s.resetBlock).opb = 0 := rfl
@[simp] theorem resetBlock_res (s : State) : (s.resetBlock).res = 0 := rfl
@[simp] theorem resetBlock_meas (s : State) : (s.resetBlock).meas = 0 := rfl
@[simp] theorem resetBlock_rb (s : State) : (s.resetBlock).rb = [] := rfl
@[simp] theorem resetBlock_pending (s : State) : (s.resetBlock).pending = s.pending := rfl
@[simp] theorem resetBlock_returned (s : State) : (s.resetBlock).returned = s.returned := rfl

@[simp] theorem issueCommand_status (s : State) (n : Nat) : (issueCommand s n).status = s.status := rfl
@[simp] theorem issueCommand_fosc (s : State) (n : Nat) : (issueCommand s n).fosc = s.fosc := rfl
@[simp] theorem issueCommand_opa (s : State) (n : Nat) : (issueCommand s n).opa = s.opa := rfl
@[simp] theorem issueCommand_opb (s : State) (n : Nat) : (issueCommand s n).opb = s.opb := rfl
@[simp] theorem issueCommand_res (s : State) (n : Nat) : (issueCommand s n).res = s.res := rfl
@[simp] theorem issueCommand_meas (s : State) (n : Nat) : (issueCommand s n).meas = s.meas := rfl
@[simp] theorem issueCommand_rb (s : State) (n : Nat) : (issueCommand s n).rb = s.rb := rfl
@[simp] theorem issueCommand_pending (s : State) (n : Nat) : (issueCommand s n).pending = .access (.write 0 n) :: s.pending := rfl
@[simp] theorem issueCommand_returned (s : State) (n : Nat) : (issueCommand s n).returned = s.returned := rfl

end Sys2Proof.Machine
end

