-- ==== Sys2Proof/Laws/Ops.lean ====
section
/-! SUPPORT. What each shared check and each way of ending a command can do, said once. -/

namespace Sys2Proof.Machine

/-- The operand width check passes exactly a value that fits, unchanged (30_encoding.md R64). -/
theorem fitOperand_eq (bits : Nat) (r : Word) :
    fitOperand bits r = if r.toNat < 2 ^ bits then .ok r.toNat else .error .badOperand := rfl

/-- The result check passes exactly a value below 2^32, unchanged (60_exceptions.md R144). -/
theorem fitResult_eq (r : Nat) : fitResult r = if r < 2 ^ 32 then .ok r else .error .range := rfl

/-- The divisor check passes exactly a value that is not 0, unchanged (R143). -/
theorem nonZeroDivisor_eq (r : Word) : nonZeroDivisor r = if r = 0 then .error .divZero else .ok r.toNat := rfl

/-- MACROP's operand check in plain numbers (R63). -/
theorem operandVcsel_eq (s : State) :
    operandVcsel s = if s.opa.toNat < 2 ^ 8 then .ok s.opa.toNat else .error .badOperand := rfl

/-- US2MCLK's divisor check in plain numbers (R63). -/
theorem operandMacroPeriod_eq (s : State) :
    operandMacroPeriod s = if s.opb = 0 then .error .divZero else .ok s.opb.toNat := rfl

/-- DECTO's operand check in plain numbers (R63). -/
theorem operandEncoded_eq (s : State) :
    operandEncoded s = if s.opa.toNat < 2 ^ 16 then .ok s.opa.toNat else .error .badOperand := rfl

/-- GAINC's operand check in plain numbers (R63). -/
theorem operandRawRange_eq (s : State) :
    operandRawRange s = if s.opa.toNat < 2 ^ 16 then .ok s.opa.toNat else .error .badOperand := rfl

/-- A checked computation ends with the first error (60_exceptions.md R145). -/
@[simp] theorem except_error_bind (e : Err) (f : Nat → Except Err Nat) : (Except.error e >>= f) = Except.error e := rfl

/-- A checked computation goes on with the value of a check that passed. -/
@[simp] theorem except_ok_bind (a : Nat) (f : Nat → Except Err Nat) : (Except.ok a >>= f) = f a := rfl

/-- A scalar command ends in one of two ways: an error that touches STATUS only, or a result in RES. -/
theorem finishRes_cases (s : State) (x : Except Err Nat) :
    (∃ e, x = .error e ∧ s.finishRes x = s.raiseError e) ∨ (∃ r, x = .ok r ∧ s.finishRes x = s.succeedRes r) := by
  cases x with
  | error e => exact .inl ⟨e, rfl, rfl⟩
  | ok r => exact .inr ⟨r, rfl, rfl⟩

/-- Every error code gives a legal STATUS (10_state.md R25). -/
theorem statusOf_errCode_le (e : Err) : (statusOf (errCode e)).toNat ≤ 4 := by
  cases e <;> decide

/-- No error code is 0. -/
theorem statusOf_errCode_ne_zero (e : Err) : statusOf (errCode e) ≠ 0 := by
  cases e <;> decide

/-- Success gives STATUS 0. -/
@[simp] theorem statusOf_zero : statusOf 0#3 = 0#8 := rfl

end Sys2Proof.Machine
end

