-- ==== Sys2Proof/Laws/Exec.lean ====
section
/-! SUPPORT. What each command is in terms of the shared operations, and what a command can do at all. -/

namespace Sys2Proof.Machine

/-- MACROP is a scalar command (40_timing_calculator.md R82). -/
theorem exec_macrop (s : State) : exec .macrop s = .next (s.finishRes (do
    let v ← operandVcsel s
    fitResult (macroPeriod v s.fosc.toNat))) := rfl

/-- US2MCLK is a scalar command (R88). -/
theorem exec_us2mclk (s : State) : exec .us2mclk s = .next (s.finishRes (do
    let mp ← operandMacroPeriod s
    fitResult (usToMclks s.opa.toNat mp))) := rfl

/-- ENCTO always succeeds (R92). -/
theorem exec_encto (s : State) : exec .encto s = .next (s.succeedRes (encodeTimeout s.opa.toNat)) := rfl

/-- DECTO is a scalar command (R95). -/
theorem exec_decto (s : State) : exec .decto s = .next (s.finishRes (do
    let c ← operandEncoded s
    fitResult (decodeTimeout c))) := rfl

/-- GAINC is a scalar command (41_measurement_decoder.md R122). -/
theorem exec_gainc (s : State) : exec .gainc s = .next (s.finishRes (do
    let r ← operandRawRange s
    .ok (gainCorrect r))) := rfl

/-- UNPACK always succeeds (R125). -/
theorem exec_unpack (s : State) : exec .unpack s = .next (s.succeedMeas
    (packMeas (unpackBlock s.rb).1 (unpackBlock s.rb).2.1 (unpackBlock s.rb).2.2)) := rfl

/-- All a command can do: fail, write RES (all but UNPACK), or write MEAS (UNPACK); always a next state. -/
theorem exec_cases (i : Instr) (s : State) :
    (∃ e, exec i s = .next (s.raiseError e)) ∨ (∃ r, i ≠ .unpack ∧ exec i s = .next (s.succeedRes r)) ∨
    (∃ m, i = .unpack ∧ exec i s = .next (s.succeedMeas m)) := by
  have scalar : ∀ {j : Instr} (x : Except Err Nat), j ≠ .unpack → exec j s = .next (s.finishRes x) →
      (∃ e, exec j s = .next (s.raiseError e)) ∨ (∃ r, j ≠ .unpack ∧ exec j s = .next (s.succeedRes r)) ∨
      (∃ m, j = .unpack ∧ exec j s = .next (s.succeedMeas m)) := by
    intro j x hj hx
    rcases finishRes_cases s x with ⟨e, -, h⟩ | ⟨r, -, h⟩
    · exact .inl ⟨e, hx.trans (congrArg _ h)⟩
    · exact .inr (.inl ⟨r, hj, hx.trans (congrArg _ h)⟩)
  cases i with
  | macrop => exact scalar _ (by simp) (exec_macrop s)
  | us2mclk => exact scalar _ (by simp) (exec_us2mclk s)
  | encto => exact .inr (.inl ⟨_, by simp, exec_encto s⟩)
  | decto => exact scalar _ (by simp) (exec_decto s)
  | gainc => exact scalar _ (by simp) (exec_gainc s)
  | unpack => exact .inr (.inr ⟨_, rfl, exec_unpack s⟩)

end Sys2Proof.Machine
end

