-- ==== Sys2Proof/Laws/Memory.lean ====
section
/-! SUPPORT. The laws of RB's canonical form (the docstring of `Memory`): a write keeps it, a written byte reads back, and every other byte
is as before. -/

namespace Sys2Proof.Machine

@[simp] theorem memory_read_nil (a : Nat) : Memory.read [] a = 0 := rfl

@[simp] theorem memory_wf_nil : Memory.wf [] = true := rfl

/-- A canonical list from `lo` on, taken apart at its first cell. -/
theorem memory_wfFrom_cons {lo k : Nat} {b : Byte} {m : Memory} :
    Memory.wfFrom lo ((k, b) :: m) = true ↔ lo ≤ k ∧ k < 17 ∧ b ≠ 0 ∧ Memory.wfFrom (k + 1) m = true := by
  simp only [Memory.wfFrom, Bool.and_eq_true, decide_eq_true_eq, and_assoc]
  exact Iff.rfl

/-- The bound of a canonical list may be lowered. -/
theorem memory_wfFrom_mono {lo lo' : Nat} (h : lo' ≤ lo) : ∀ {m : Memory},
    Memory.wfFrom lo m = true → Memory.wfFrom lo' m = true
  | [], _ => rfl
  | (k, b) :: m, w => by
    obtain ⟨h1, h2⟩ := memory_wfFrom_cons.mp w
    exact memory_wfFrom_cons.mpr ⟨h.trans h1, h2⟩

/-- Below its bound a canonical list holds no cell. -/
theorem memory_read_below {a : Nat} : ∀ {lo : Nat} {m : Memory}, a < lo → Memory.wfFrom lo m = true → Memory.read m a = 0
  | _, [], _, _ => rfl
  | lo, (k, b) :: m, h, w => by
    obtain ⟨h1, -, -, h2⟩ := memory_wfFrom_cons.mp w
    rw [Memory.read, if_neg (by omega), memory_read_below (by omega) h2]

/-- A write at or above the bound keeps the canonical form. -/
theorem memory_wfFrom_write {a : Nat} (b : Byte) (ha : a < 17) : ∀ {lo : Nat} {m : Memory},
    lo ≤ a → Memory.wfFrom lo m = true → Memory.wfFrom lo (Memory.write m a b) = true
  | lo, [], h, _ => by
    rw [Memory.write]
    split
    · rfl
    · exact memory_wfFrom_cons.mpr ⟨h, ha, ‹_›, rfl⟩
  | lo, (k, c) :: m, h, w => by
    obtain ⟨h1, h2, hc, h3⟩ := memory_wfFrom_cons.mp w
    rw [Memory.write]
    split
    · split
      · exact w
      · exact memory_wfFrom_cons.mpr ⟨h, ha, ‹_›, memory_wfFrom_cons.mpr ⟨by omega, h2, hc, h3⟩⟩
    · split
      · subst_vars
        split
        · exact memory_wfFrom_mono (by omega) h3
        · exact memory_wfFrom_cons.mpr ⟨h, ha, ‹_›, h3⟩
      · exact memory_wfFrom_cons.mpr ⟨h1, h2, hc, memory_wfFrom_write b ha (by omega) h3⟩

/-- A write keeps RB in its canonical form. -/
theorem memory_write_wf {m : Memory} {a : Nat} (b : Byte) (ha : a < 17) (w : m.wf = true) : (m.write a b).wf = true :=
  memory_wfFrom_write b ha (Nat.zero_le a) w

/-- A read after a write, from the bound on. -/
theorem memory_read_writeFrom {a : Nat} (b : Byte) (j : Nat) : ∀ {lo : Nat} {m : Memory},
    lo ≤ a → Memory.wfFrom lo m = true → Memory.read (Memory.write m a b) j = if j = a then b else Memory.read m j
  | lo, [], _, _ => by
    rw [Memory.write]
    split
    · subst_vars
      simp [Memory.read]
    · rfl
  | lo, (k, c) :: m, h, w => by
    obtain ⟨h1, -, -, h3⟩ := memory_wfFrom_cons.mp w
    rw [Memory.write]
    split
    · rename_i hlt
      split
      · subst_vars
        split
        · subst_vars
          exact memory_read_below (lo := k) hlt (memory_wfFrom_cons.mpr ⟨le_refl k, (memory_wfFrom_cons.mp w).2⟩)
        · rfl
      · rw [Memory.read]
    · split
      · subst_vars
        split
        · subst_vars
          by_cases hj : j = k
          · subst hj
            simpa using memory_read_below (Nat.lt_succ_self j) h3
          · simp [Memory.read, hj]
        · by_cases hj : j = k <;> simp [Memory.read, hj]
      · have ih := memory_read_writeFrom (a := a) b j (lo := k + 1) (m := m) (by omega) h3
        by_cases hj : j = k
        · subst hj
          simp [Memory.read, show j ≠ a from fun hja => ‹¬a = j› hja.symm]
        · simp [Memory.read, hj, ih]

/-- A written byte reads back and every other byte is as before. -/
theorem memory_read_write {m : Memory} {a : Nat} (b : Byte) (j : Nat) (w : m.wf = true) :
    (m.write a b).read j = if j = a then b else m.read j :=
  memory_read_writeFrom b j (Nat.zero_le a) w

end Sys2Proof.Machine
end

