-- ==== Sys2Proof/Laws/PerInstr.lean ====
section
/-! SUPPORT. The per-instruction family named in LAWS.json: each instruction's code lies within the defined codes (30_encoding.md R62), is
decoded as the instruction, and is what the host's view of the opcode table decodes. -/

namespace Sys2Proof.Laws.Coding

/-- What is said of an instruction: it is well formed, its code is one of 0x01 to 0x06 and decodes to it. -/
def Statement (i : Instr) : Prop :=
  i.wf = true ∧ 1 ≤ (encode i).toNat ∧ (encode i).toNat ≤ 6 ∧ decode (encode i) = .ok i ∧
  decodeTableWord 8 (encode i).toNat = some i

theorem macrop : Statement .macrop := by unfold Statement; decide

theorem us2mclk : Statement .us2mclk := by unfold Statement; decide

theorem encto : Statement .encto := by unfold Statement; decide

theorem decto : Statement .decto := by unfold Statement; decide

theorem gainc : Statement .gainc := by unfold Statement; decide

theorem unpack : Statement .unpack := by unfold Statement; decide

end Sys2Proof.Laws.Coding
end

