-- ==== Sys2Proof/Laws/Port.lean ====
section
/-! SUPPORT. All that a command write, a host write, an event and a step can do when they answer a next state. -/

namespace Sys2Proof.Machine

/-- The map's addresses are those of its locations (20_memory.md R41). -/
theorem locAt_addressOf (l : Loc) : locAt (addressOf l) = some l := by
  cases l with
  | rb i =>
    have h : i.val < 17 := i.isLt
    have h0 : 0x20 ≤ addressOf (.rb i) ∧ addressOf (.rb i) < 0x31 := by simp only [addressOf]; omega
    unfold locAt
    rw [if_neg (by omega), if_neg (by omega), if_neg (by omega), if_neg (by omega), if_neg (by omega), if_neg (by omega),
      if_neg (by omega), dif_pos h0]
    exact congrArg (fun x => some (Loc.rb x)) (Fin.ext (by simp [addressOf]))
  | _ => rfl

/-- A location found at an address has that address (R41). -/
theorem addressOf_locAt {a : Nat} {l : Loc} (h : locAt a = some l) : addressOf l = a := by
  unfold locAt at h
  split at h <;> try (cases h; simp_all [addressOf])
  split at h <;> try (cases h; simp_all [addressOf])
  split at h <;> try (cases h; simp_all [addressOf])
  split at h <;> try (cases h; simp_all [addressOf])
  split at h <;> try (cases h; simp_all [addressOf])
  split at h <;> try (cases h; simp_all [addressOf])
  split at h <;> try (cases h; simp_all [addressOf])
  split at h
  · cases h
    simp [addressOf]
    omega
  · cases h

/-- A reserved command value is rejected by the decoder, a defined one is its instruction's code (30_encoding.md R67). -/
theorem decode_cases (c : Byte) : (∃ i, decode c = .ok i ∧ c = encode i) ∨ (decode c = .error (.reservedCode c)) := by
  by_cases h1 : c = 1
  · exact .inl ⟨.macrop, by subst h1; rfl, h1⟩
  by_cases h2 : c = 2
  · exact .inl ⟨.us2mclk, by subst h2; rfl, h2⟩
  by_cases h3 : c = 3
  · exact .inl ⟨.encto, by subst h3; rfl, h3⟩
  by_cases h4 : c = 4
  · exact .inl ⟨.decto, by subst h4; rfl, h4⟩
  by_cases h5 : c = 5
  · exact .inl ⟨.gainc, by subst h5; rfl, h5⟩
  by_cases h6 : c = 6
  · exact .inl ⟨.unpack, by subst h6; rfl, h6⟩
  · have mask : c &&& 0xFF = c := BitVec.and_allOnes
    refine .inr ?_
    simp only [decode, opcodeMap, selectRow, mask]
    rw [if_neg h1, if_neg h2, if_neg h3, if_neg h4, if_neg h5, if_neg h6]

/-- All a command write can do: fail, write RES, or write MEAS; always a next state (60_exceptions.md R159). -/
theorem runCommand_cases (c : Byte) (s : State) :
    (∃ e, runCommand c s = .next (s.raiseError e)) ∨ (∃ r, runCommand c s = .next (s.succeedRes r)) ∨
    (∃ m, runCommand c s = .next (s.succeedMeas m)) := by
  rcases decode_cases c with ⟨i, h, -⟩ | h
  · rcases exec_cases i s with ⟨e, he⟩ | ⟨r, -, hr⟩ | ⟨m, -, hm⟩
    · exact .inl ⟨e, by simp [runCommand, h, he]⟩
    · exact .inr (.inl ⟨r, by simp [runCommand, h, hr]⟩)
    · exact .inr (.inr ⟨m, by simp [runCommand, h, hm]⟩)
  · exact .inl ⟨.illegalCmd, by simp [runCommand, h]⟩

/-- A host write to a location of the map: refused, or stored (20_memory.md R42, R43, R45). -/
theorem hostWrite_addressOf (l : Loc) (v : Nat) (s : State) : hostWrite (addressOf l) v s =
    if hostWritable l then (if v < 2 ^ widthOf l then storeLoc l v s else .refused (.valueTooWide l v))
    else .refused (.writeOfReadOnly l) := by
  simp [hostWrite, locAt_addressOf]

/-- A host write of a fitting value to a writable location is stored (R42, R43). -/
theorem hostWrite_fits (l : Loc) {v : Nat} (s : State) (hl : hostWritable l = true) (hv : v < 2 ^ widthOf l) :
    hostWrite (addressOf l) v s = storeLoc l v s := by
  rw [hostWrite_addressOf, if_pos hl, if_pos hv]

/-- A host read of a location of the map (R44, R45). -/
theorem hostRead_addressOf (l : Loc) (s : State) :
    hostRead (addressOf l) s = if hostReadable l then .ok (locValue s l) else .error .readOfCmd := by
  simp [hostRead, locAt_addressOf]

/-- All a host write that goes through can do: run a command, or store to one of FOSC, OPA, OPB and RB. -/
theorem hostWrite_next {a v : Nat} {s t : State} (h : hostWrite a v s = .next t) :
    (a = 0 ∧ v < 2 ^ 8 ∧ runCommand (BitVec.ofNat 8 v) s = .next t) ∨
    (∃ f, t = { s with fosc := f }) ∨ (∃ x, t = { s with opa := x }) ∨ (∃ x, t = { s with opb := x }) ∨
    (∃ i b, i < 17 ∧ t = { s with rb := s.rb.write i b }) := by
  unfold hostWrite at h
  cases hl : locAt a with
  | none => simp [hl] at h
  | some l =>
    have ha := addressOf_locAt hl
    simp only [hl] at h
    split at h <;> [skip; cases h]
    split at h <;> [skip; cases h]
    rename_i hv
    cases l with
    | cmd => exact .inl ⟨ha.symm, hv, h⟩
    | fosc => cases h; exact .inr (.inl ⟨_, rfl⟩)
    | opa => cases h; exact .inr (.inr (.inl ⟨_, rfl⟩))
    | opb => cases h; exact .inr (.inr (.inr (.inl ⟨_, rfl⟩)))
    | rb i => cases h; exact .inr (.inr (.inr (.inr ⟨_, _, i.isLt, rfl⟩)))
    | status => cases h
    | res => cases h
    | meas => cases h

/-- `CHK` always goes through, and touches the host's part only (30_encoding.md R69). -/
theorem checkStatus_eq (s : State) : checkStatus s = .next
    (if (statusValue s).toNat = 0 then s.note (statusValue s).toNat
     else { s.note (statusValue s).toNat with pending := s.pending.filter isReset }) := rfl

/-- The first half of `MOV` always goes through, and touches the host's part only (R69). -/
theorem moveRes_eq (t : MovTarget) (s : State) : moveRes t s = .next
    { s.note s.res.toNat with pending := .access (.write (addressOf (movLoc t)) s.res.toNat) :: s.pending } := rfl

/-- All an event that goes through can do to the block and the host. -/
theorem perform_next {e : Event} {s t : State} (h : perform e s = .next t) :
    (∃ n p, t = { s.note n with pending := p }) ∨ t = s.resetBlock ∨
    (∃ a v, e = .access (.write a v) ∧ hostWrite a v s = .next t) := by
  rcases e with (a | ⟨a, v⟩) | m | _ | _
  · simp only [perform, readNoted] at h
    split at h <;> cases h
    exact .inl ⟨_, s.pending, rfl⟩
  · exact .inr (.inr ⟨a, v, rfl, h⟩)
  · simp only [perform, moveRes_eq] at h
    cases h
    exact .inl ⟨_, _, rfl⟩
  · simp only [perform, checkStatus_eq] at h
    cases h
    split
    · exact .inl ⟨_, s.pending, rfl⟩
    · exact .inl ⟨_, _, rfl⟩
  · cases h
    exact .inr (.inl rfl)

/-- A step with nothing pending. -/
theorem step_nil {s : State} (h : s.pending = []) : step s = .next s := by
  simp [step, advance, h]

/-- A step with an event pending. -/
theorem step_cons {s : State} {e : Event} {rest : List Event} (h : s.pending = e :: rest) :
    step s = perform e { s with pending := rest } := by
  simp [step, advance, h]

end Sys2Proof.Machine
end

