-- ==== Sys2Proof/Laws/WellFormed.lean ====
section
/-! SUPPORT. The well-formedness of a host access in terms of the location it names. -/

namespace Sys2Proof.Machine

/-- A read of a location of the map is well formed exactly when the location is readable (20_memory.md R41, R45). -/
theorem read_addressOf_wf (l : Loc) : (HostAccess.read (addressOf l)).wf = hostReadable l := by
  simp [HostAccess.wf, locAt_addressOf]

/-- A write to a location of the map is well formed exactly when the location is writable and the value fits (R41, R45). -/
theorem write_addressOf_wf (l : Loc) (v : Nat) :
    (HostAccess.write (addressOf l) v).wf = true ↔ hostWritable l = true ∧ v < 2 ^ widthOf l := by
  simp only [HostAccess.wf, locAt_addressOf, Option.any_some, Bool.and_eq_true, decide_eq_true_eq]

end Sys2Proof.Machine
end

