-- ==== Sys2Proof/Tests/Slice0.lean ====
section
/-! SUPPORT. Tests: decoding, the well-formedness checks, the vectors of 95_test_vectors.md (at most two a command), and for each statement
with hypotheses a witness that meets them, at the boundary values of its clauses. -/

namespace Sys2Proof.Tests

open Sys2Proof.Machine

/-- The state an outcome answers. -/
def answer : Host.Outcome State Fault Refusal → Option State
  | .next s => some s
  | .fault _ => none
  | .refused _ => none

/-- The refusal an outcome answers. -/
def refusal : Host.Outcome State Fault Refusal → Option Refusal
  | .next _ => none
  | .fault _ => none
  | .refused r => some r

/-- The reset state with OPA, OPB and FOSC given. -/
def operands (a b : Word) (f : Half) : State :=
  { State.reset with opa := a, opb := b, fosc := f }

/-- RES and STATUS after a command. -/
def resStatus (o : Host.Outcome State Fault Refusal) : Option (Word × Byte) :=
  (answer o).map fun s => (s.res, s.status)

/-! ### Decoding: each word written out from the OPC column of 30_encoding.md R62 -/

theorem test_decode_macrop : decode 0b00000001 = .ok .macrop := by decide
theorem test_decode_us2mclk : decode 0b00000010 = .ok .us2mclk := by decide
theorem test_decode_encto : decode 0b00000011 = .ok .encto := by decide
theorem test_decode_decto : decode 0b00000100 = .ok .decto := by decide
theorem test_decode_gainc : decode 0b00000101 = .ok .gainc := by decide
theorem test_decode_unpack : decode 0b00000110 = .ok .unpack := by decide

/-- R65: 0x00 is reserved, and so is a code that differs from MACROP's in bit 7 only. -/
theorem test_decode_reserved : decode 0x00 = .error (.reservedCode 0x00) ∧ decode 0x81 = .error (.reservedCode 0x81) := by decide

/-- No two rows of R62 select one value: two patterns that differ under a common mask. -/
theorem test_opcode_rows_apart :
    opcodeMap.Pairwise (fun r q => r.pattern &&& q.mask ≠ q.pattern &&& r.mask) := by decide

theorem test_table_words : (List.range 8).map (decodeTableWord 8) =
    [none, some .macrop, some .us2mclk, some .encto, some .decto, some .gainc, some .unpack, none] := by decide

/-- The first step after reset runs the word: UNPACK writes MEAS and STATUS, 0 both (R125 (a)). -/
theorem test_first_step : answer (step (State.reset.withFetchWord 8 0x06)) = some State.reset := by decide

/-! ### The well-formedness checks: an ill-formed term for each is refused (20_memory.md R45, 30_encoding.md R68, R69) -/

theorem test_wf_read_cmd : (HostAccess.read 0x00).wf = false ∧
    refusal (perform (.access (.read 0x00)) State.reset) = some .readOfCmd := by decide
theorem test_wf_write_read_only : (HostAccess.write 0x01 0).wf = false ∧ (HostAccess.write 0x05 0).wf = false ∧
    refusal (perform (.access (.write 0x06 0)) State.reset) = some (.writeOfReadOnly .meas) := by decide
theorem test_wf_reserved : (HostAccess.read 0x07).wf = false ∧ (HostAccess.write 0x31 0).wf = false ∧
    refusal (perform (.access (.read 0x3F)) State.reset) = some (.reservedAddress 0x3F) := by decide
theorem test_wf_above_map : (HostAccess.write 0x40 0).wf = false ∧
    refusal (perform (.access (.read 0x40)) State.reset) = some (.addressAboveMap 0x40) := by decide
theorem test_wf_too_wide : (HostAccess.write 0x00 0x100).wf = false ∧ (HostAccess.write 0x02 0x10000).wf = false ∧
    (HostAccess.write 0x03 0x100000000).wf = false ∧
    refusal (perform (.access (.write 0x23 0x100)) State.reset) = some (.valueTooWide (.rb 3) 0x100) := by decide
theorem test_wf_lines : (Line.wrFosc 0x10000).wf = false ∧ (Line.wrOpa 0x100000000).wf = false ∧
    (Line.wrOpb 0x100000000).wf = false ∧ (Line.wrb 17 0).wf = false ∧ (Line.wrb 3 0x100).wf = false ∧
    (Line.cmd 0x100).wf = false ∧ (Line.rdb 17).wf = false ∧ (Line.ldblk [1, 2]).wf = false := by decide

/-! ### 95_test_vectors.md section 2 -/

/-- 2.1: v = 5, f = 48332 gives 149951; v = 255, f = 71 is RANGE with RES unchanged. -/
theorem test_macrop_values : resStatus (exec .macrop (operands 5 0 48332)) = some (149951, 0) ∧
    resStatus (exec .macrop (operands 255 0 71)) = some (0, 4) := by decide

/-- 2.1: the operand check comes before the zero sentinel. -/
theorem test_macrop_operand_first : resStatus (exec .macrop (operands 256 0 0)) = some (0, 2) ∧
    resStatus (exec .macrop (operands 255 0 0)) = some (0, 0) := by decide

/-- 2.2: the tie of t = 3, M = 8192 rounds up to 2; t = 5, M = 3 gives 6827. -/
theorem test_us2mclk_rounds : resStatus (exec .us2mclk (operands 3 8192 0)) = some (2, 0) ∧
    resStatus (exec .us2mclk (operands 5 3 0)) = some (6827, 0) := by decide

/-- 2.2: the largest result, one past it, and the zero divisor. -/
theorem test_us2mclk_range : resStatus (exec .us2mclk (operands 0xFFFFFFFF 4096 0)) = some (0xFFFFFFFF, 0) ∧
    resStatus (exec .us2mclk (operands 0xFFFFFFFF 4095 0)) = some (0, 4) ∧
    resStatus (exec .us2mclk (operands 10000 0 0)) = some (0, 3) := by decide

/-- 2.3: 1000 gives 0x02F9, 513 gives 0x0280. -/
theorem test_encto_values : resStatus (exec .encto (operands 1000 0 0)) = some (0x02F9, 0) ∧
    resStatus (exec .encto (operands 513 0 0)) = some (0x0280, 0) := by decide

/-- 2.3: the top of the range. -/
theorem test_encto_top : resStatus (exec .encto (operands 0xFF000000 0 0)) = some (0x18FE, 0) ∧
    resStatus (exec .encto (operands 2147483649 0 0)) = some (0x1880, 0) := by decide

/-- 2.4: exponent 25 is accepted while the value fits; 1 << 255 is RANGE: no shift count is reduced. -/
theorem test_decto_range : resStatus (exec .decto (operands 0x197F 0 0)) = some (0xFE000001, 0) ∧
    resStatus (exec .decto (operands 0xFF01 0 0)) = some (0, 4) := by decide

/-- 2.4: 0x0402 gives 33; 0xFFFF0000 is not taken as 0x0000. -/
theorem test_decto_operand : resStatus (exec .decto (operands 0x0402 0 0)) = some (33, 0) ∧
    resStatus (exec .decto (operands 0xFFFF0000 0 0)) = some (0, 2) := by decide

/-- 2.5: 32768 is not negative; 13330 gives 13089. -/
theorem test_gainc_values : resStatus (exec .gainc (operands 32768 0 0)) = some (32176, 0) ∧
    resStatus (exec .gainc (operands 13330 0 0)) = some (13089, 0) := by decide

/-- 2.5: one past the operand's width. -/
theorem test_gainc_operand : resStatus (exec .gainc (operands 65535 0 0)) = some (64351, 0) ∧
    resStatus (exec .gainc (operands 65536 0 0)) = some (0, 2) := by decide

/-- 2.6: RB[13] is the high byte. -/
theorem test_unpack_byte_order :
    (answer (exec .unpack { State.reset with rb := [(13, 0x34), (14, 0x12)] })).map (·.meas) = some 0x00003321 := by decide

/-- 2.6, last row, loaded by LDBLK's writes (30_encoding.md R69). -/
theorem test_unpack_row :
    (answer (exec .unpack { State.reset with rb := [(0, 0x09), (1, 0x11), (2, 0x2A), (13, 0x08), (14, 0x12), (16, 0xEE)] })).map (·.meas)
      = some 0x092A07ED := by decide

/-- 2.7: a reserved command leaves RES as it was. -/
theorem test_reserved_command : resStatus (hostWrite 0x00 0x80 { State.reset with res := 0x0180 }) = some (0x0180, 1) := by decide

/-- A write of 0 to RB takes the cell out again, so the memory is canonical (R34). -/
theorem test_memory_canonical : Memory.write (Memory.write (Memory.write [] 16 7) 3 9) 16 0 = [(3, 9)] := by decide

/-! ### Witnesses: for each statement with hypotheses, a state and operands that meet them -/

theorem witness_WellFormedEventsNeverStop :
    ([.access (.read 0x30), .access (.write 0x30 0xFF), .mov .opa, .chk, .reset] : List Event).all Event.wf = true := by decide

theorem witness_ResetLineResetsBlock :
    ({ operands 1 2 3 with pending := [.reset, .chk] } : State).pending = .reset :: [.chk] := by decide

theorem witness_IdleBlockHoldsState : (operands 1 2 3).pending = [] := by decide

theorem witness_HostWriteStores : (0xFFFF : Nat) < 2 ^ 16 ∧ (0xFFFFFFFF : Nat) < 2 ^ 32 ∧ (0xFF : Nat) < 2 ^ 8 ∧
    ({ State.reset with rb := [(0, 1), (16, 2)] } : State).rb.wf = true ∧
    (answer (hostWrite 0x30 0xFF State.reset)).map (·.rb) = some [(16, 0xFF)] ∧
    (answer (hostWrite 0x20 0 { State.reset with rb := [(0, 1)] })).map (·.rb) = some [] := by decide

/-- HostReadGivesValue and HostNotesReadValues: bits 7:3 read as 0 even in a state no run reaches, and RB's last byte reads. -/
theorem witness_HostReadGivesValue : hostRead 0x01 { State.reset with status := 0xFF } = .ok 7 ∧
    (answer (step { State.reset with status := 0xFF, pending := [.access (.read 0x01)] })).map (·.returned) = some [7] ∧
    (answer (step { State.reset with rb := [(16, 5)], pending := [.access (.read 0x30)] })).map (·.returned) = some [5] ∧
    (answer (step { State.reset with meas := 0xFFFFFFFF, pending := [.access (.read 0x06)] })).map (·.returned)
      = some [0xFFFFFFFF] := by decide

theorem witness_WellFormedLinesGiveWellFormedEvents : (Line.wrFosc 0xFFFF).wf = true ∧ (Line.wrb 16 0xFF).wf = true ∧
    (Line.rdb 16).wf = true ∧
    (Line.ldblk [0x09, 0x11, 0x2A, 0x33, 0x44, 0x55, 0x66, 0x77, 0x88, 0x99, 0xAA, 0xBB, 0xCC, 0x08, 0x12, 0xDD, 0xEE]).wf = true := by
  decide

theorem witness_MovCarriesResult :
    (answer (runSteps 2 { State.reset with res := 0xFFFFFFFF, pending := [.mov .opa, .chk] })).map (·.opa) = some 0xFFFFFFFF ∧
    (answer (runSteps 2 { State.reset with res := 7, pending := [.mov .opb] })).map (·.opb) = some 7 := by decide

theorem witness_ChkStopsOnErrorCode : errField 0x08 = 0 ∧ errField 0x04 ≠ 0 ∧
    (answer (step { State.reset with status := 4, pending := [.chk, .mov .opa, .reset] })).map (fun s => (s.pending, s.returned))
      = some ([.reset], [4]) ∧
    (answer (step { State.reset with status := 0, pending := [.chk, .mov .opa] })).map (fun s => (s.pending, s.returned))
      = some ([.mov .opa], [0]) := by decide

theorem witness_StepRunsDecodedCommand : (State.reset.withFetchWord 8 6).pending = .access (.write 0x00 6) :: [] ∧ 6 < 2 ^ 8 ∧
    decode (BitVec.ofNat 8 6) = .ok .unpack ∧ Instr.unpack.wf = true := by decide

theorem witness_ReservedCodesReportIllegalCmd : resStatus (hostWrite 0x00 0x00 State.reset) = some (0, 1) ∧
    resStatus (hostWrite 0x00 0x07 State.reset) = some (0, 1) ∧ resStatus (hostWrite 0x00 0xFF State.reset) = some (0, 1) ∧
    resStatus (hostWrite 0x00 0x06 State.reset) = some (0, 0) := by decide

theorem witness_MacropOutcome : 2 ^ 8 ≤ (operands 256 0 1).opa.toNat ∧
    ((operands 255 0 71).opa.toNat < 2 ^ 8 ∧ 2 ^ 32 ≤ macroPeriod (operands 255 0 71).opa.toNat (operands 255 0 71).fosc.toNat) ∧
    ((operands 255 0 72).opa.toNat < 2 ^ 8 ∧ macroPeriod (operands 255 0 72).opa.toNat (operands 255 0 72).fosc.toNat < 2 ^ 32) := by decide

theorem witness_ZeroFrequencyGivesSentinel : (operands 255 0 0).fosc = 0 ∧ (operands 255 0 0).opa.toNat < 2 ^ 8 ∧
    2 ^ 8 ≤ (operands 256 0 0).opa.toNat ∧ (operands 256 0 0).opb = 0 := by decide

theorem witness_Us2mclkOutcome : (operands 1 0 0).opb = 0 ∧
    ((operands 0xFFFFFFFF 4095 0).opb ≠ 0 ∧ 2 ^ 32 ≤ (0xFFFFFFFF * 2 ^ 12 + 4095 / 2) / 4095) ∧
    ((operands 0xFFFFFFFF 4096 0).opb ≠ 0 ∧ (0xFFFFFFFF * 2 ^ 12 + 4096 / 2) / 4096 < 2 ^ 32) := by decide

theorem witness_DectoOutcome : 2 ^ 16 ≤ (operands 0x10000 0 0).opa.toNat ∧
    ((operands 0xFFFF 0 0).opa.toNat < 2 ^ 16 ∧ 2 ^ 32 ≤ decodeTimeout (operands 0xFFFF 0 0).opa.toNat) ∧
    ((operands 0x197F 0 0).opa.toNat < 2 ^ 16 ∧ decodeTimeout (operands 0x197F 0 0).opa.toNat < 2 ^ 32) ∧
    mantissaOf 0xFF00 = 0 := by decide

theorem witness_GaincOutcome : 2 ^ 16 ≤ (operands 65536 0 0).opa.toNat ∧ (operands 65535 0 0).opa.toNat < 2 ^ 16 ∧
    gainCorrect 27 = 27 ∧ gainCorrect 28 = 27 := by decide

/-- FailedCommandChangesOnlyStatus: a command that fails. -/
theorem witness_FailedCommandChangesOnlyStatus :
    (answer (hostWrite 0x00 4 (operands 0x1980 0 0))).map (·.status) = some 4 := by decide

theorem witness_ResetLeavesEveryItemZero : (16 : Nat) ≤ 16 ∧ Loc.rb 16 ≠ .cmd ∧ hostRead (addressOf (.rb 16)) State.reset = .ok 0 := by decide

theorem witness_StepKeepsInv : StateInv (State.reset.withFetchWord 8 0xFF) ∧
    step (State.reset.withFetchWord 8 0xFF) = .next { State.reset with status := 1 } := ⟨by decide, rfl⟩

theorem witness_HostNotesReadValues :
    ({ operands 9 0 0 with pending := [.access (.read 0x03)] } : State).pending = .access (.read 0x03) :: [] ∧
    hostRead 0x03 (operands 9 0 0) = .ok 9 := by decide

theorem witness_CommandWriteFollowsDecoder : (255 : Nat) < 256 ∧ (answer (hostWrite 0x00 255 State.reset)).isSome = true ∧
    (answer (hostWrite 0x00 0 State.reset)).isSome = true := by decide

theorem witness_CommandWriteIdempotent :
    hostWrite 0x00 2 (operands 1 1 0) = .next { operands 1 1 0 with res := 4096, status := 0 } := rfl

/-- Each clause: reserved at both ends, BAD_OPERAND, DIV_ZERO, RANGE, and success. -/
theorem witness_ErrorCodeFollowsPriority : resStatus (hostWrite 0x00 0 State.reset) = some (0, 1) ∧
    resStatus (hostWrite 0x00 7 State.reset) = some (0, 1) ∧ resStatus (hostWrite 0x00 1 (operands 256 0 1)) = some (0, 2) ∧
    resStatus (hostWrite 0x00 2 (operands 0xFFFFFFFF 0 0)) = some (0, 3) ∧
    resStatus (hostWrite 0x00 4 (operands 0x1980 0 0)) = some (0, 4) ∧ resStatus (hostWrite 0x00 6 State.reset) = some (0, 0) := by decide

theorem witness_MacroPeriodClosedForm : (1 : Nat) ≤ 1 ∧ macroPeriod 255 1 = 309237645312 := by decide

/-- The ends of the ranges: f = 1, 3, 72 and 65535, v = 0, 2 and 255. -/
theorem witness_MacroPeriodRange : ((255 : Nat) ≤ 255 ∧ (1 : Nat) ≤ 1 ∧ (1 : Nat) ≤ 65535) ∧ (3 ≤ 3 ∧ macroPeriod 7 3 < 2 ^ 32) ∧
    ((72 : Nat) ≤ 72 ∧ macroPeriod 255 72 < 2 ^ 32) ∧ macroPeriod 0 65535 = 18432 ∧ macroPeriod 2 1 < 2 ^ 32 := by decide

theorem witness_MacroIntermediateSizes : ((255 : Nat) ≤ 255 ∧ (1 : Nat) ≤ 1 ∧ (1 : Nat) ≤ 65535) ∧ macroT3 255 1 = 18432 * 2 ^ 30 ∧
    pllPeriodUs 65535 = 16384 := by decide

/-- 95_test_vectors.md 2.1: the two sides of f = 576, and the value a wrapping datapath gives at 575. -/
theorem witness_MacroPeriodWrappingAgreement : ((1 : Nat) ≤ 575 ∧ (576 : Nat) ≤ 576 ∧ (31 : Nat) ≤ 31) ∧ macropAgrees 31 576 ∧
    ¬ macropAgrees 7 575 ∧ macroPeriodWrapped 7 575 = 29177 ∧ macroPeriodWrapped 7 576 = 16777215 := by decide

/-- An odd divisor and a tie at an even one. -/
theorem witness_UsToMclksRoundsToNearest : ((1 : Nat) ≤ 8193 ∧ 8193 % 2 = 1) ∧ (1 : Nat) ≤ 8192 ∧ usToMclks 3 8192 = 2 := by decide

/-- Both sides of the agreement set at t = 2^20 - 1, and the clauses' bounds. -/
theorem witness_UsToMclksRangeAndAgreement : ((1 : Nat) ≤ 1 ∧ 4096 * (2 ^ 20 - 1) + 1 / 2 < 1 * 2 ^ 32) ∧
    ((4096 : Nat) ≤ 4096 ∧ (0xFFFFFFFF : Nat) < 2 ^ 32) ∧ us2mclkAgrees (2 ^ 20 - 1) 8191 ∧ ¬ us2mclkAgrees (2 ^ 20 - 1) 8192 := by decide

theorem witness_EncodeTakesSmallestExponent : (257 : Nat) ≠ 0 ∧ encodeTimeout 257 = 0x0180 ∧ encodeTimeout 256 = 0x00FF := by decide

theorem witness_EncodeClosedForm : (1 : Nat) ≤ 1 ∧ encodeTimeout 1 = 0 ∧ bitlen 255 = 8 ∧ bitlen 256 = 9 ∧ bitlen 0 = 0 := by decide

theorem witness_DecodeOfFields : (255 : Nat) ≤ 255 ∧ decodeTimeout (255 * 256 + 255) = 255 * 2 ^ 255 + 1 := by decide

theorem witness_DecodeFitsExactlyWhen : (0xFFFF : Nat) < 2 ^ 16 ∧ decodeTimeout 0x197F < 2 ^ 32 ∧ 2 ^ 32 ≤ decodeTimeout 0x1980 ∧
    mantissaOf 0xFF00 = 0 := by decide

/-- Exact at 256, 257 and at a decoded code; a loss at 258. -/
theorem witness_RoundTripFromClocks : ((1 : Nat) ≤ 1 ∧ (2 ^ 32 - 1 : Nat) < 2 ^ 32) ∧ ((256 : Nat) ≤ 256 ∧ encodeTimeout 256 = 0x00FF) ∧
    ((0x0A05 : Nat) < 2 ^ 16 ∧ decodeTimeout 0x0A05 = 5121) ∧ decodeTimeout (encodeTimeout 258) = 257 := by decide

/-- Where the exponent leaves 0, where it becomes 24, and where the largest code begins. -/
theorem witness_EncoderOutputRange : ((1 : Nat) ≤ 257 ∧ (257 : Nat) < 2 ^ 32 ∧ 1 ≤ exponentOf (encodeTimeout 257)) ∧
    exponentOf (encodeTimeout 256) = 0 ∧ exponentOf (encodeTimeout (2 ^ 31)) = 23 ∧ exponentOf (encodeTimeout (2 ^ 31 + 1)) = 24 ∧
    encodeTimeout 0xFF000000 = 0x18FE ∧ encodeTimeout 0xFF000001 = 0x18FF := by decide

/-- A canonical code, one that is not, and one with a zero mantissa, all within 32 bits. -/
theorem witness_RoundTripFromCode : ((0x18FF : Nat) < 2 ^ 16 ∧ decodeTimeout 0x18FF < 2 ^ 32 ∧ canonicalCode 0x18FF) ∧
    (decodeTimeout 0x017F < 2 ^ 32 ∧ ¬ canonicalCode 0x017F) ∧ (decodeTimeout 0x1900 < 2 ^ 32 ∧ mantissaOf 0x1900 = 0) := by decide

theorem witness_CanonicalCodesAreTheEncoders : ((0x00FF : Nat) < 0x0180 ∧ (0x0180 : Nat) < 2 ^ 16 ∧ canonicalCode 0x00FF ∧
    canonicalCode 0x0180) ∧ ¬ canonicalCode 0x1980 ∧ ((2 ^ 32 - 1 : Nat) < 2 ^ 32 ∧ encodeTimeout (2 ^ 32 - 1) = 0x18FF) := by decide

theorem witness_EncodeMonotone : (256 : Nat) ≤ 2 ^ 32 - 1 ∧ (2 ^ 32 - 1 : Nat) < 2 ^ 32 := by decide

/-- P1's first half of 95_test_vectors.md: FOSC = 48332, v = 7, t = 10000 gives the code 0x00CC. -/
theorem witness_BudgetSequenceGivesComposite :
    ({ operands 0 0 48332 with pending := listingEvents [.wrOpa 7, .command .macrop, .mov .opb, .wrOpa 10000, .command .us2mclk,
        .mov .opa, .command .encto, .rdRes] } : State).pending =
      [.access (.write 0x03 7), .access (.write 0x00 0x01), .mov .opb, .access (.write 0x03 10000),
        .access (.write 0x00 0x02), .mov .opa, .access (.write 0x00 0x03), .access (.read 0x05)] ++ [] ∧
    (7 : Nat) < 2 ^ 8 ∧ (10000 : Nat) < 2 ^ 32 ∧ (operands 0 0 48332).fosc ≠ 0 ∧
    macroPeriod 7 (operands 0 0 48332).fosc.toNat < 2 ^ 32 ∧ encodeBudget 10000 7 48332 = 0x00CC := by decide

theorem witness_GainCorrectLaws : (65535 : Nat) ≤ 65535 ∧ (27 : Nat) ≤ 28 ∧ gainCorrect 28 = 27 := by decide

/-- A memory that differs at offset 0 only, one at 2 only, one at 14 only, and one outside 0, 2, 13 and 14 only. -/
theorem witness_UnpackFieldsAreIndependent :
    (answer (exec .unpack { State.reset with rb := [(0, 1), (2, 2)] })).map (·.meas) = some 0x01020000 ∧
    (answer (exec .unpack { State.reset with rb := [(0, 7), (2, 2)] })).map (·.meas) = some 0x07020000 ∧
    (answer (exec .unpack { State.reset with rb := [(0, 1), (2, 7)] })).map (·.meas) = some 0x01070000 ∧
    (answer (exec .unpack { State.reset with rb := [(0, 1), (2, 2), (14, 1)] })).map (·.meas) = some 0x01020001 ∧
    (answer (exec .unpack { State.reset with rb := [(0, 1), (1, 9), (2, 2), (16, 9)] })).map (·.meas) = some 0x01020000 := by decide

/-- A canonical memory, and a list that breaks each part of the form. -/
theorem witness_CanonicalMemoriesAreEqual : Memory.wf [(0, 1), (16, 2)] = true ∧ Memory.wf [(0, 0)] = false ∧
    Memory.wf [(17, 1)] = false ∧ Memory.wf [(2, 1), (1, 1)] = false := by decide

theorem witness_CommandOverwritesStatus : (255 : Nat) < 2 ^ 8 ∧ resStatus (hostWrite 0x00 3 { operands 2 0 0 with status := 4 }) = some (1, 0) := by
  decide

/-- Every command answers a next state: UNPACK and one that is not UNPACK, US2MCLK or MACROP among them. -/
theorem witness_CommandFrame :
    ([.macrop, .us2mclk, .encto, .decto, .gainc, .unpack] : List Instr).all (fun i => (answer (exec i State.reset)).isSome) = true := by
  decide

theorem witness_CommandsIgnoreOtherOperands : exec .encto (operands 2 5 5) = .next { operands 2 5 5 with res := 1, status := 0 } ∧
    Instr.encto ≠ .us2mclk ∧ Instr.encto ≠ .macrop ∧ Instr.encto ≠ .unpack ∧
    exec .unpack (operands 2 5 5) = .next { operands 2 5 5 with meas := 0, status := 0 } :=
  ⟨rfl, by decide, by decide, by decide, rfl⟩

theorem witness_CommandsHaveNoHiddenState :
    exec .gainc (operands 2048 0 0) = .next { operands 2048 0 0 with res := 2011, status := 0 } := rfl

end Sys2Proof.Tests
end

section
/-! PROOFS. The family 10_state.md: what the block holds at reset (R34). -/

namespace Sys2Proof.Machine

/-! ### The rules of State.reset, one per item (R34) -/

@[simp] theorem reset_status : State.reset.status = 0 := rfl
@[simp] theorem reset_fosc : State.reset.fosc = 0 := rfl
@[simp] theorem reset_opa : State.reset.opa = 0 := rfl
@[simp] theorem reset_opb : State.reset.opb = 0 := rfl
@[simp] theorem reset_res : State.reset.res = 0 := rfl
@[simp] theorem reset_meas : State.reset.meas = 0 := rfl
@[simp] theorem reset_rb : State.reset.rb = [] := rfl

/-- STATUS bits 7:3 are masked on a read (R25), which leaves the reset value as it is. -/
@[simp] theorem reset_statusValue : statusValue State.reset = 0 := rfl

/-- Every byte of RB reads 0 at reset, for RB lists no cell. -/
theorem reset_rb_read (i : Nat) : State.reset.rb.read i = 0 := by
  rw [reset_rb, memory_read_nil]

/-- Every location holds the value 0 at reset. -/
theorem reset_locValue (l : Loc) : locValue State.reset l = 0 := by
  cases l <;> simp [locValue]

/-- CMD is the only location the host cannot read (20_memory.md R41). -/
theorem hostReadable_of_ne_cmd {l : Loc} (h : l ≠ .cmd) : hostReadable l = true := by
  cases l with
  | cmd => exact absurd rfl h
  | _ => rfl

/-- A host read of any location but CMD gives the location's value (20_memory.md R44). -/
theorem hostRead_of_ne_cmd {l : Loc} (h : l ≠ .cmd) (s : State) : hostRead (addressOf l) s = .ok (locValue s l) := by
  rw [hostRead_addressOf, if_pos (hostReadable_of_ne_cmd h)]

/-- Settles O1: the items are 0 as the reset state has them, RB lists no cell, and a host read gives the value a location holds. -/
theorem resetLeavesEveryItemZero : Obligations.ResetLeavesEveryItemZero := by
  have readZero (l : Loc) (h : l ≠ .cmd) : hostRead (addressOf l) State.reset = .ok 0 := by
    rw [hostRead_of_ne_cmd h, reset_locValue]
  exact ⟨reset_status, reset_fosc, reset_opa, reset_opb, reset_res, reset_meas, fun i _ => reset_rb_read i, readZero⟩

end Sys2Proof.Machine
end

section
/-! PROOFS. The family 20_memory.md: what a host access returns, stores and is refused (R42, R44, R45), and the byte order of RB (R46). -/

namespace Sys2Proof.Machine

/-! ### Addresses without a location, and the width of STATUS -/

/-- The addresses that hold no location are the reserved ones and those above the map (R41): each test of the map decides both sides. -/
theorem locAt_eq_none_iff (a : Nat) : locAt a = none ↔ (0x07 ≤ a ∧ a ≤ 0x1F) ∨ 0x31 ≤ a := by
  unfold locAt
  split_ifs <;> simp only [false_iff, true_iff] <;> omega

/-- A read of STATUS gives bits 2:0, for bits 7:3 are hardwired 0 (10_state.md R25). -/
theorem statusValue_toNat (s : State) : (statusValue s).toNat = s.status.toNat % 8 := by
  simp only [statusValue, statusOf, errField, BitVec.toNat_setWidth]
  omega

/-! ### What a host read does -/

/-- A host read of an address without a location is refused (R45). -/
theorem hostRead_of_locAt_none {a : Nat} (h : locAt a = none) (s : State) : hostRead a s = .error (noLocation a) := by
  simp [hostRead, h]

/-- A read event that returns a value changes only the host's list of read values (R44). -/
theorem perform_read_ok {a n : Nat} {s : State} (h : hostRead a s = .ok n) :
    perform (.access (.read a)) s = .next (s.note n) := by
  simp [perform, readNoted, h]

/-- A read event is refused exactly when the port gives no value. -/
theorem perform_read_refused_iff (a : Nat) (s : State) :
    (∃ r, perform (.access (.read a)) s = .refused r) ↔ ∃ r, hostRead a s = .error r := by
  cases h : hostRead a s <;> simp [perform, readNoted, h]

/-- A host read is refused exactly when it is not well formed (R45). -/
theorem hostRead_error_iff_not_wf (a : Nat) (s : State) :
    (∃ r, hostRead a s = .error r) ↔ (HostAccess.read a).wf = false := by
  cases hl : locAt a with
  | none => simp [hostRead_of_locAt_none hl, HostAccess.wf, hl]
  | some l =>
    obtain rfl := addressOf_locAt hl
    rw [hostRead_addressOf, read_addressOf_wf]
    cases hostReadable l <;> simp

/-- The reads without a meaning, by address (R41, R45). -/
theorem read_not_wf_iff (a : Nat) :
    (HostAccess.read a).wf = false ↔ a = 0x00 ∨ (0x07 ≤ a ∧ a ≤ 0x1F) ∨ 0x31 ≤ a := by
  cases hl : locAt a with
  | none => simp [HostAccess.wf, hl, (locAt_eq_none_iff a).mp hl]
  | some l =>
    obtain rfl := addressOf_locAt hl
    rw [read_addressOf_wf]
    cases l with
    | rb i =>
      simp only [hostReadable, addressOf, Bool.true_eq_false, false_iff]
      omega
    | _ => simp [hostReadable, addressOf]

/-! ### What a host write does -/

/-- A host write to an address without a location is refused (R45). -/
theorem hostWrite_of_locAt_none {a : Nat} (h : locAt a = none) (v : Nat) (s : State) :
    hostWrite a v s = .refused (noLocation a) := by
  simp [hostWrite, h]

/-- A store to a writable location always answers a next state; for CMD that is how a command ends (R43, 60_exceptions.md R159). -/
theorem storeLoc_next {l : Loc} (h : hostWritable l = true) (v : Nat) (s : State) : ∃ t, storeLoc l v s = .next t := by
  cases l with
  | cmd =>
    rcases runCommand_cases (BitVec.ofNat 8 v) s with ⟨_, h⟩ | ⟨_, h⟩ | ⟨_, h⟩
    all_goals exact ⟨_, h⟩
  | fosc | opa | opb | rb => exact ⟨_, rfl⟩
  | status | res | meas => cases h

/-- A host write is refused exactly when it is not well formed (R45). -/
theorem hostWrite_refused_iff_not_wf (a v : Nat) (s : State) :
    (∃ r, hostWrite a v s = .refused r) ↔ (HostAccess.write a v).wf = false := by
  cases hl : locAt a with
  | none => simp [hostWrite_of_locAt_none hl, HostAccess.wf, hl]
  | some l =>
    obtain rfl := addressOf_locAt hl
    rw [hostWrite_addressOf, ← Bool.not_eq_true, write_addressOf_wf]
    by_cases hw : hostWritable l = true
    · by_cases hv : v < 2 ^ widthOf l
      · obtain ⟨t, ht⟩ := storeLoc_next hw v s
        simp [hw, hv, ht]
      · simp [hw, hv]
    · simp [hw]

/-- The writes without a meaning, by address and value (R41, R45). -/
theorem write_not_wf_iff (a v : Nat) :
    (HostAccess.write a v).wf = false ↔
      (a = 0x01 ∨ a = 0x05 ∨ a = 0x06 ∨ (0x07 ≤ a ∧ a ≤ 0x1F) ∨ 0x31 ≤ a ∨
       (a = 0x00 ∧ 2 ^ 8 ≤ v) ∨ (a = 0x02 ∧ 2 ^ 16 ≤ v) ∨ (a = 0x03 ∧ 2 ^ 32 ≤ v) ∨ (a = 0x04 ∧ 2 ^ 32 ≤ v) ∨
       (0x20 ≤ a ∧ a ≤ 0x30 ∧ 2 ^ 8 ≤ v)) := by
  cases hl : locAt a with
  | none =>
    have hout := (locAt_eq_none_iff a).mp hl
    simp only [HostAccess.wf, hl, Option.any_none, true_iff]
    omega
  | some l =>
    obtain rfl := addressOf_locAt hl
    rw [← Bool.not_eq_true, write_addressOf_wf]
    cases l with
    | rb i =>
      simp only [hostWritable, widthOf, addressOf, true_and]
      omega
    | _ => simp [hostWritable, widthOf, addressOf]

/-! ### The bytes of RB -/

/-- A field of one byte is that byte. -/
theorem memRead_one (m : Memory) (off : Nat) : memRead m off 1 = (m.read off).toNat := by
  simp [memRead]

/-- In a field of two bytes the byte at the lower offset is the more significant (R46). -/
theorem memRead_two (m : Memory) (off : Nat) :
    memRead m off 2 = ((m.read off).toNat <<< 8) ||| (m.read (off + 1)).toNat := by
  rw [← Nat.shiftLeft_add_eq_or_of_lt (m.read (off + 1)).isLt, Nat.shiftLeft_eq, memRead, memRead_one]

/-! ### The obligations -/

/-- Settles O7: FOSC, OPA and OPB are fields of their own, and a byte written to RB's canonical list reads back alone. -/
theorem hostWriteStores : Obligations.HostWriteStores := by
  intro s v
  refine ⟨hostWrite_fits .fosc s rfl, hostWrite_fits .opa s rfl, hostWrite_fits .opb s rfl, fun i hwf hi hv => ?_⟩
  have hi17 : i < 17 := Nat.lt_succ_of_le hi
  exact ⟨s.rb.write i (BitVec.ofNat 8 v), memory_write_wf _ hi17 hwf, hostWrite_fits (.rb ⟨i, hi17⟩) s rfl hv,
    fun j => memory_read_write _ j hwf⟩

/-- Settles O11: the port refuses what is not well formed, and those accesses are R45's list. -/
theorem refusedAccessesAreThoseOfTheList : Obligations.RefusedAccessesAreThoseOfTheList := by
  constructor
  · intro s a
    rw [perform_read_refused_iff, hostRead_error_iff_not_wf, read_not_wf_iff]
  · intro s a v
    exact (hostWrite_refused_iff_not_wf a v s).trans (write_not_wf_iff a v)

/-- Settles O8: each address is a readable location's, and only the host's note of the value is added. -/
theorem hostReadGivesValue : Obligations.HostReadGivesValue := by
  intro s a n h
  have hread : hostRead a s = .ok n := by
    rcases h with ⟨rfl, rfl⟩ | ⟨rfl, rfl⟩ | ⟨rfl, rfl⟩ | ⟨rfl, rfl⟩ | ⟨rfl, rfl⟩ | ⟨rfl, rfl⟩ | ⟨i, hi, rfl, rfl⟩
    · rw [← statusValue_toNat]
      exact hostRead_addressOf .status s
    · exact hostRead_addressOf .fosc s
    · exact hostRead_addressOf .opa s
    · exact hostRead_addressOf .opb s
    · exact hostRead_addressOf .res s
    · exact hostRead_addressOf .meas s
    · exact hostRead_addressOf (.rb ⟨i, Nat.lt_succ_of_le hi⟩) s
  exact ⟨hread, _, perform_read_ok hread⟩

/-- Settles O49: the final range is the two-byte field at offset 13. -/
theorem rawBlockIsBigEndian : Obligations.RawBlockIsBigEndian :=
  fun m off => ⟨memRead_one m off, memRead_two m off, memRead_two m 13⟩

end Sys2Proof.Machine
end

section
/-! PROOFS. The family 30_encoding.md: what a CMD write does for each of the 256 values (R65, R67). -/

namespace Sys2Proof.Machine

/-! ### What the decoder answers for a defined and for a reserved code -/

/-- The facts about the codes hold of every instruction (R62). -/
theorem coding_statement (i : Instr) : Laws.Coding.Statement i := by
  cases i with
  | macrop => exact Laws.Coding.macrop
  | us2mclk => exact Laws.Coding.us2mclk
  | encto => exact Laws.Coding.encto
  | decto => exact Laws.Coding.decto
  | gainc => exact Laws.Coding.gainc
  | unpack => exact Laws.Coding.unpack

/-- The defined codes lie between 0x01 and 0x06 (R62). -/
theorem encode_toNat_bounds (i : Instr) : 1 ≤ (encode i).toNat ∧ (encode i).toNat ≤ 6 := by
  obtain ⟨-, hlow, hhigh, -, -⟩ := coding_statement i
  exact ⟨hlow, hhigh⟩

/-- An instruction's code decodes to it (R67). -/
theorem decode_encode (i : Instr) : decode (encode i) = .ok i := by
  obtain ⟨-, -, -, hdecode, -⟩ := coding_statement i
  exact hdecode

/-- A value outside 0x01 to 0x06 is rejected as a reserved code (R65). -/
theorem decode_of_reserved {c : Byte} (h : c.toNat = 0 ∨ 7 ≤ c.toNat) : decode c = .error (.reservedCode c) := by
  rcases decode_cases c with ⟨i, -, rfl⟩ | hreject
  · have := encode_toNat_bounds i
    omega
  · exact hreject

/-! ### What a command write does -/

/-- A write of an 8-bit value to CMD runs the command (20_memory.md R43). -/
theorem hostWrite_cmd {c : Nat} (hc : c < 256) (s : State) : hostWrite 0x00 c s = runCommand (BitVec.ofNat 8 c) s :=
  hostWrite_fits .cmd s rfl hc

/-- A write of an instruction's code to CMD executes the instruction (R67). -/
theorem hostWrite_encode (i : Instr) (s : State) : hostWrite 0x00 (encode i).toNat s = exec i s := by
  rw [hostWrite_cmd (encode i).isLt, BitVec.ofNat_toNat, BitVec.setWidth_eq, runCommand, decode_encode]

/-- A command write of a reserved code fails with ILLEGAL_CMD (R65, 60_exceptions.md R141). -/
theorem runCommand_of_reserved {c : Byte} (h : c.toNat = 0 ∨ 7 ≤ c.toNat) (s : State) :
    runCommand c s = .next (s.raiseError .illegalCmd) := by
  rw [runCommand, decode_of_reserved h]

/-! ### The obligations -/

/-- Settles O20: the decoder rejects the code, and ILLEGAL_CMD is error code 1. -/
theorem reservedCodesReportIllegalCmd : Obligations.ReservedCodesReportIllegalCmd := by
  intro s c h
  have hc : c < 256 := by omega
  have hcode : (BitVec.ofNat 8 c).toNat = c := Nat.mod_eq_of_lt hc
  rw [hostWrite_cmd hc, runCommand_of_reserved (by omega)]
  rfl

/-- Settles O19: the six defined codes are the instructions' codes, every other value is reserved, and a command always ends. -/
theorem commandWriteFollowsDecoder : Obligations.CommandWriteFollowsDecoder := by
  intro s c hc
  constructor
  · split_ifs with h1 h2 h3 h4 h5 h6
    · rw [h1]; exact hostWrite_encode .macrop s
    · rw [h2]; exact hostWrite_encode .us2mclk s
    · rw [h3]; exact hostWrite_encode .encto s
    · rw [h4]; exact hostWrite_encode .decto s
    · rw [h5]; exact hostWrite_encode .gainc s
    · rw [h6]; exact hostWrite_encode .unpack s
    · exact reservedCodesReportIllegalCmd s c (by omega)
  · rw [hostWrite_cmd hc]
    exact storeLoc_next (l := .cmd) rfl c s

end Sys2Proof.Machine
end

section
/-! PROOFS. The family 40_timing_calculator.md: MACROP's period (R81 to R86), the rounded quotient (R87 to R90), and the encoder and the
decoder of timeouts (R91 to R102). -/

namespace Sys2Proof.Machine

/-! ### How a checked result ends a command (60_exceptions.md R144) -/

/-- A result of 2^32 or more ends the command with RANGE. -/
theorem finishRes_fitResult_of_le {r : Nat} (h : 2 ^ 32 ≤ r) (s : State) :
    s.finishRes (fitResult r) = s.raiseError .range := by
  rw [fitResult_eq, if_neg (Nat.not_lt.mpr h)]
  rfl

/-- A result below 2^32 is written to RES. -/
theorem finishRes_fitResult_of_lt {r : Nat} (h : r < 2 ^ 32) (s : State) :
    s.finishRes (fitResult r) = s.succeedRes r := by
  rw [fitResult_eq, if_pos h]
  rfl

/-! ### MACROP's period (R81 to R86), with `p = 2^30 / f` -/

/-- The PLL period is a floor division of 2^30 (R81). -/
theorem pllPeriodUs_eq (f : Nat) : pllPeriodUs f = 2 ^ 30 / f := rfl

/-- Step t1 of R81. -/
theorem macroT1_eq (f : Nat) : macroT1 f = 2304 * (2 ^ 30 / f) := rfl

/-- Step t2: 2304 is 36 * 2^6, so the first shift discards nothing (R83). -/
theorem macroT2_eq (f : Nat) : macroT2 f = 36 * (2 ^ 30 / f) := by
  rw [macroT2, macroT1_eq, Nat.shiftRight_eq_div_pow]
  omega

/-- Step t3, as a product of constants, the PLL period and `v + 1`. -/
theorem macroT3_eq (v f : Nat) : macroT3 v f = 72 * (2 ^ 30 / f * (v + 1)) := by
  rw [macroT3, macroT2_eq, vcselPeriodPclks]
  ring

/-- The sentinel of a zero frequency (60_exceptions.md R150). -/
theorem macroPeriod_zero (v : Nat) : macroPeriod v 0 = 0 := rfl

/-- Step t4, for a frequency that is not 0. -/
theorem macroPeriod_of_pos {f : Nat} (hf : 1 ≤ f) (v : Nat) : macroPeriod v f = macroT3 v f >>> 6 :=
  if_neg (Nat.ne_of_gt hf)

/-- The closed form of R83: of the 72 / 2^6 of steps t3 and t4, 9 / 8 is left. -/
theorem macroPeriod_closed {f : Nat} (hf : 1 ≤ f) (v : Nat) : macroPeriod v f = 9 * (2 ^ 30 / f) * (v + 1) / 8 := by
  rw [macroPeriod_of_pos hf, macroT3_eq, Nat.shiftRight_eq_div_pow, Nat.mul_assoc]
  omega

/-- The closed form is monotone in the PLL period and in `v`. -/
theorem macroPeriod_le {f p v w : Nat} (hf : 1 ≤ f) (hp : 2 ^ 30 / f ≤ p) (hv : v ≤ w) :
    macroPeriod v f ≤ 9 * p * (w + 1) / 8 := by
  rw [macroPeriod_closed hf]
  gcongr

/-- A 16-bit frequency leaves a PLL period of 16384 or more (R84). -/
theorem le_pllPeriod {f : Nat} (hf : 1 ≤ f) (hf16 : f ≤ 65535) : 16384 ≤ 2 ^ 30 / f := by
  rw [Nat.le_div_iff_mul_le hf]
  omega

/-- No PLL period exceeds its numerator. -/
theorem pllPeriod_le (f : Nat) : 2 ^ 30 / f ≤ 2 ^ 30 := Nat.div_le_self _ _

/-- MACROP's least result for a 16-bit frequency (R84). -/
theorem le_macroPeriod {f : Nat} (hf : 1 ≤ f) (hf16 : f ≤ 65535) (v : Nat) : 18432 ≤ macroPeriod v f := by
  have hp := le_pllPeriod hf hf16
  calc 18432 = 9 * 16384 * (0 + 1) / 8 := by norm_num
    _ ≤ 9 * (2 ^ 30 / f) * (v + 1) / 8 := by gcongr; exact Nat.zero_le v
    _ = macroPeriod v f := (macroPeriod_closed hf v).symm

/-- Settles O22: the operand check, then the result check, decide the outcome, and the function is R81's four steps. -/
theorem macropOutcome : Obligations.MacropOutcome := by
  refine ⟨fun s => ⟨fun hwide => ?_, fun hopa hrange => ?_, fun hopa hfits => ?_⟩, macroPeriod_zero, fun v f hf => ?_,
    fun v f _ hf hf16 => le_macroPeriod hf (by omega) v, by decide, by decide⟩
  · rw [exec_macrop, operandVcsel_eq, if_neg (Nat.not_lt.mpr hwide)]
    rfl
  · rw [exec_macrop, operandVcsel_eq, if_pos hopa, except_ok_bind, finishRes_fitResult_of_le hrange]
    rfl
  · rw [exec_macrop, operandVcsel_eq, if_pos hopa, except_ok_bind, finishRes_fitResult_of_lt hfits]
    rfl
  · exact macroPeriod_of_pos (Nat.pos_of_ne_zero hf) v

/-- Settles O24: the one shift by 12 leaves 9 / 8 of the product as the two shifts by 6 do. -/
theorem macroPeriodClosedForm : Obligations.MacroPeriodClosedForm := by
  intro v f hf
  have hfull : 2304 * (2 ^ 30 / f) * ((v + 1) * 2) = 4608 * (2 ^ 30 / f * (v + 1)) := by ring
  refine ⟨macroPeriod_closed hf v, ?_⟩
  rw [macroPeriod_closed hf, hfull, Nat.shiftRight_eq_div_pow, Nat.mul_assoc]
  omega

/-- Settles O25: each bound is the closed form at the bound of the PLL period. -/
theorem macroPeriodRange : Obligations.MacroPeriodRange := by
  refine ⟨fun v f hv hf hf16 => ⟨le_macroPeriod hf hf16 v, ?_, ?_, fun h72 => ?_, fun h3 => ?_, fun hfits => ?_⟩,
    fun v f _ hf16 => ⟨fun h0 => ?_, fun h0 => ?_⟩, fun v _ => ?_, by decide, by decide, by decide, by decide, by decide,
    by decide, by decide, by decide⟩
  · exact (macroPeriod_le hf (pllPeriod_le f) hv).trans (by norm_num)
  · rw [macroPeriod_closed hf]
  · have hp : 2 ^ 30 / f ≤ 2 ^ 30 / 72 := Nat.div_le_div_left h72 (by omega)
    exact (macroPeriod_le hf hp hv).trans_lt (by norm_num)
  · have hp : 2 ^ 30 / f ≤ 2 ^ 30 / 3 := Nat.div_le_div_left h3 (by omega)
    exact (macroPeriod_le hf hp le_rfl).trans_lt (by norm_num)
  · rw [macroPeriod_closed hf] at hfits ⊢
    omega
  · by_contra hf
    have hlow := le_macroPeriod (Nat.pos_of_ne_zero hf) hf16 v
    omega
  · rw [h0, macroPeriod_zero]
  · rw [macroPeriod_closed le_rfl]
    omega

/-- Settles O26: each step is bounded by the step of the largest PLL period and the largest `v`. -/
theorem macroIntermediateSizes : Obligations.MacroIntermediateSizes := by
  intro v f hv hf hf16
  have hlow := le_pllPeriod hf hf16
  have hhigh := pllPeriod_le f
  have hproduct : 2 ^ 30 / f * (v + 1) ≤ 2 ^ 30 * 256 := Nat.mul_le_mul hhigh (by omega)
  rw [macroPeriod_of_pos hf, Nat.shiftRight_eq_div_pow, macroT3_eq, macroT2_eq, macroT1_eq, pllPeriodUs_eq, vcselPeriodPclks]
  omega

/-! ### Where a 32-bit wrapping accumulator gives MACROP's result (R86) -/

/-- Reducing modulo 2^32 keeps the value shifted by 6 exactly when nothing was reduced. -/
theorem wrap32_shiftRight_six_eq_iff (n : Nat) : wrap32 n >>> 6 = n >>> 6 ↔ n < 2 ^ 32 := by
  simp only [wrap32, Nat.shiftRight_eq_div_pow]
  omega

/-- A product that lost 64 or more before the last shift gives a smaller result, whether it wraps or not. -/
theorem wrap32_shiftRight_six_lt {n m : Nat} (h : n + 64 ≤ m) : wrap32 n >>> 6 < m >>> 6 := by
  simp only [wrap32, Nat.shiftRight_eq_div_pow]
  omega

/-- The wrapping reading from its own steps t1 and t2. -/
theorem macroPeriodWrapped_of_pos {f : Nat} (hf : 1 ≤ f) (v : Nat) :
    macroPeriodWrapped v f = wrap32 ((wrap32 (macroT1 f) >>> 6) * vcselPeriodPclks v) >>> 6 :=
  if_neg (Nat.ne_of_gt hf)

/-- A wrap in t1 loses 2^26 or more in t2, hence more than the last shift can hide. -/
theorem macroPeriodWrapped_lt_of_wrap {f : Nat} (hf : 1 ≤ f) (hwrap : 2 ^ 32 ≤ macroT1 f) (v : Nat) :
    macroPeriodWrapped v f < macroPeriod v f := by
  have hloss : (wrap32 (macroT1 f) >>> 6) + 64 ≤ macroT2 f := by
    simp only [macroT2, wrap32, Nat.shiftRight_eq_div_pow]
    omega
  have hproduct : ((wrap32 (macroT1 f) >>> 6) * vcselPeriodPclks v) + 64 ≤ macroT3 v f := by
    have hone : 1 ≤ vcselPeriodPclks v := by rw [vcselPeriodPclks]; omega
    calc (wrap32 (macroT1 f) >>> 6) * vcselPeriodPclks v + 64
        ≤ (wrap32 (macroT1 f) >>> 6) * vcselPeriodPclks v + 64 * vcselPeriodPclks v := by omega
      _ = ((wrap32 (macroT1 f) >>> 6) + 64) * vcselPeriodPclks v := by ring
      _ ≤ macroT3 v f := Nat.mul_le_mul_right _ hloss
  rw [macroPeriodWrapped_of_pos hf, macroPeriod_of_pos hf]
  exact wrap32_shiftRight_six_lt hproduct

/-- Without a wrap in t1 only t3 can wrap. -/
theorem macroPeriodWrapped_eq_iff_of_lt {f : Nat} (hf : 1 ≤ f) (hfits : macroT1 f < 2 ^ 32) (v : Nat) :
    macroPeriodWrapped v f = macroPeriod v f ↔ macroT3 v f < 2 ^ 32 := by
  have ht1 : wrap32 (macroT1 f) = macroT1 f := Nat.mod_eq_of_lt hfits
  rw [macroPeriodWrapped_of_pos hf, macroPeriod_of_pos hf, ht1]
  exact wrap32_shiftRight_six_eq_iff (macroT3 v f)

/-- The agreement set of R86 speaks of steps t1 and t3. -/
theorem macropAgrees_iff {f : Nat} (hf : 1 ≤ f) (v : Nat) :
    macropAgrees v f ↔ macroT1 f < 2 ^ 32 ∧ macroT3 v f < 2 ^ 32 := by
  have ht3 : macroT3 v f = 36 * (2 ^ 30 / f) * 2 * (v + 1) := by rw [macroT3_eq]; ring
  rw [macropAgrees, macroT1_eq, ht3]
  exact and_iff_right hf

/-- t1 fits 32 bits exactly from the frequency 576 on (R86). -/
theorem pllPeriod_le_iff {f : Nat} (hf : 1 ≤ f) : 2 ^ 30 / f ≤ 1864135 ↔ 576 ≤ f := by
  rw [← Nat.lt_succ_iff, Nat.div_lt_iff_lt_mul hf]
  omega

/-- Settles O27: a wrap in t1 always shows in the result; without one the result shows exactly a wrap in t3. -/
theorem macroPeriodWrappingAgreement : Obligations.MacroPeriodWrappingAgreement := by
  refine ⟨fun v f hf => ?_, fun f hf => ⟨?_, ?_⟩, fun v f hf hv => ?_, by decide, by decide⟩
  · rw [macropAgrees_iff hf]
    by_cases hfits : macroT1 f < 2 ^ 32
    · rw [macroPeriodWrapped_eq_iff_of_lt hf hfits, and_iff_right hfits]
    · have hlt := macroPeriodWrapped_lt_of_wrap hf (Nat.not_lt.mp hfits) v
      exact iff_of_false hlt.ne fun h => hfits h.1
  · rw [← pllPeriod_le_iff hf]
    omega
  · omega
  · have hp : 2 ^ 30 / f ≤ 1864135 := (pllPeriod_le_iff (by omega)).mpr hf
    calc 36 * (2 ^ 30 / f) * 2 * (v + 1) ≤ 36 * 1864135 * 2 * (31 + 1) := by gcongr
      _ < 2 ^ 32 := by norm_num

/-! ### The rounded quotient of US2MCLK (R87 to R90) -/

/-- R87's quotient in plain arithmetic. -/
theorem usToMclks_eq (t mp : Nat) : usToMclks t mp = (t * 2 ^ 12 + mp / 2) / mp := by
  rw [usToMclks, Nat.shiftLeft_eq]

/-- A bound on the quotient is a bound on the numerator. -/
theorem usToMclks_lt_iff {mp : Nat} (hmp : 1 ≤ mp) (t k : Nat) : usToMclks t mp < k ↔ t * 2 ^ 12 + mp / 2 < k * mp := by
  rw [usToMclks_eq, Nat.div_lt_iff_lt_mul hmp]

/-- With a divisor that MACROP can produce the quotient stays far below 2^32 (R88). -/
theorem usToMclks_le_of_macroPeriod {t mp : Nat} (ht : t < 2 ^ 32) (hmp : 18432 ≤ mp) : usToMclks t mp ≤ 954437177 := by
  rw [← Nat.lt_succ_iff, usToMclks_lt_iff (by omega)]
  omega

/-- Settles O28: the divisor check, then the result check, decide the outcome. -/
theorem us2mclkOutcome : Obligations.Us2mclkOutcome := by
  refine ⟨fun s => ?_, fun t mp _ => rfl, fun mp hmp => ?_, fun t mp ht hmp => by omega,
    fun t mp ht hmp => usToMclks_le_of_macroPeriod ht hmp, by decide, by decide, by decide, by decide, by decide, by decide⟩
  · rw [← usToMclks_eq]
    refine ⟨fun hzero => ?_, fun hopb hrange => ?_, fun hopb hfits => ?_⟩
    · rw [exec_us2mclk, operandMacroPeriod_eq, if_pos hzero]
      rfl
    · rw [exec_us2mclk, operandMacroPeriod_eq, if_neg hopb, except_ok_bind, finishRes_fitResult_of_le hrange]
      rfl
    · rw [exec_us2mclk, operandMacroPeriod_eq, if_neg hopb, except_ok_bind, finishRes_fitResult_of_lt hfits]
      rfl
  · rw [← Nat.lt_one_iff, usToMclks_lt_iff hmp]
    omega

/-- Settles O29: the division's own bounds, doubled; an odd multiple of an odd divisor is no even number. -/
theorem usToMclksRoundsToNearest : Obligations.UsToMclksRoundsToNearest := by
  intro t mp hmp
  have hlow : usToMclks t mp * mp ≤ t * 2 ^ 12 + mp / 2 := by
    rw [usToMclks_eq]
    exact Nat.div_mul_le_self _ _
  have hhigh : t * 2 ^ 12 + mp / 2 < (usToMclks t mp + 1) * mp := (usToMclks_lt_iff hmp t _).mp (Nat.lt_succ_self _)
  rw [Nat.mul_assoc 2, Nat.mul_assoc 2]
  refine ⟨by omega, by omega, fun hodd => ⟨by omega, fun k hk => ?_⟩⟩
  have hproduct : Odd ((2 * k + 1) * mp) := (odd_two_mul_add_one k).mul (Nat.odd_iff.mpr hodd)
  rw [← hk] at hproduct
  exact Nat.not_odd_iff_even.mpr (even_two_mul _) hproduct

/-- The wrapping reading reduces the numerator once. -/
theorem usToMclksWrapped_eq (t mp : Nat) : usToMclksWrapped t mp = (t * 2 ^ 12 + mp / 2) % 2 ^ 32 / mp := by
  rw [usToMclksWrapped, wrap32, wrap32, Nat.mod_add_mod, Nat.shiftLeft_eq]

/-- Reducing a numerator modulo 2^32 keeps its quotient by a 32-bit divisor exactly when nothing was reduced: a wrap takes off at least
one divisor. -/
theorem mod_div_eq_div_iff {n d : Nat} (hd : 1 ≤ d) (hd32 : d < 2 ^ 32) : n % 2 ^ 32 / d = n / d ↔ n < 2 ^ 32 := by
  refine ⟨fun h => ?_, fun h => by rw [Nat.mod_eq_of_lt h]⟩
  by_contra hwrap
  have hstep : n % 2 ^ 32 / d + 1 ≤ n / d := by
    rw [← Nat.add_div_right _ hd]
    exact Nat.div_le_div_right (by omega)
  omega

/-- Settles O30: bounds on the numerator, and a numerator that wraps loses at least one divisor. -/
theorem usToMclksRangeAndAgreement : Obligations.UsToMclksRangeAndAgreement := by
  refine ⟨fun t mp hmp hfits => ?_, fun t mp hmp ht => ?_, by decide, fun t mp hmp hmp32 => ?_, fun t mp hagrees => ?_,
    by decide, by decide⟩
  · rw [usToMclks_lt_iff hmp]
    omega
  · rw [usToMclks_lt_iff (by omega)]
    omega
  · rw [usToMclksWrapped_eq, usToMclks_eq]
    exact mod_div_eq_div_iff hmp hmp32
  · rw [us2mclkAgrees] at hagrees
    omega

/-! ### Bit lengths (00_scope.md R9) -/

@[simp] theorem bitlen_zero : bitlen 0 = 0 := rfl

/-- A value fits `n` bits exactly when it is below `2 ^ n`. -/
theorem bitlen_le_iff (v n : Nat) : bitlen v ≤ n ↔ v < 2 ^ n := by
  rw [bitlen]
  split_ifs with h
  · simp [h]
  · exact Nat.log2_lt h

/-- The highest set bit of a value. -/
theorem lt_bitlen_iff (v n : Nat) : n < bitlen v ↔ 2 ^ n ≤ v := by
  rw [← Nat.not_le, bitlen_le_iff, Nat.not_lt]

/-- A larger value is no shorter. -/
theorem bitlen_mono {v w : Nat} (h : v ≤ w) : bitlen v ≤ bitlen w :=
  (bitlen_le_iff _ _).mpr (h.trans_lt ((bitlen_le_iff _ _).mp le_rfl))

/-- A shift right by `k` takes `k` bits off. -/
theorem bitlen_div_two_pow (v k : Nat) : bitlen (v / 2 ^ k) = bitlen v - k := by
  refine eq_of_forall_ge_iff fun n => ?_
  rw [bitlen_le_iff, Nat.div_lt_iff_lt_mul (Nat.two_pow_pos k), ← Nat.pow_add, ← bitlen_le_iff, Nat.sub_le_iff_le_add]

/-- A shift left by one puts one bit on, except on 0. -/
theorem bitlen_two_mul {v : Nat} (hv : v ≠ 0) : bitlen (2 * v) = bitlen v + 1 := by
  rw [bitlen, bitlen, if_neg (by omega), if_neg hv, Nat.log2_two_mul hv]

/-- A shift left by `k` puts `k` bits on, except on 0. -/
theorem bitlen_mul_two_pow {v : Nat} (hv : v ≠ 0) (k : Nat) : bitlen (v * 2 ^ k) = bitlen v + k := by
  induction k with
  | zero => simp
  | succ k ih =>
    have hne : v * 2 ^ k ≠ 0 := Nat.mul_ne_zero hv (Nat.two_pow_pos k).ne'
    have hdouble : v * 2 ^ (k + 1) = 2 * (v * 2 ^ k) := by ring
    rw [hdouble, bitlen_two_mul hne, ih, Nat.add_assoc]

/-! ### The fields of a code and the value it stands for (R80, R94) -/

/-- EXP is the upper byte (R80). -/
theorem exponentOf_eq (c : Nat) : exponentOf c = c / 256 := Nat.shiftRight_eq_div_pow c 8

/-- MAN is the lower byte (R80). -/
theorem mantissaOf_eq (c : Nat) : mantissaOf c = c % 256 := Nat.and_two_pow_sub_one_eq_mod c 8

/-- A mantissa has 8 bits. -/
theorem mantissaOf_lt (c : Nat) : mantissaOf c < 256 := by
  rw [mantissaOf_eq]
  exact Nat.mod_lt c (by omega)

/-- A code is its two fields. -/
theorem code_eq_fields (c : Nat) : c = exponentOf c * 256 + mantissaOf c := by
  rw [exponentOf_eq, mantissaOf_eq]
  omega

/-- The exponent of a code given by its fields. -/
theorem exponentOf_fields {m : Nat} (hm : m < 256) (e : Nat) : exponentOf (e * 256 + m) = e := by
  rw [exponentOf_eq]
  omega

/-- The mantissa of a code given by its fields. -/
theorem mantissaOf_fields {m : Nat} (hm : m < 256) (e : Nat) : mantissaOf (e * 256 + m) = m := by
  rw [mantissaOf_eq]
  omega

/-- R94 in plain arithmetic. -/
theorem decodeTimeout_eq (c : Nat) : decodeTimeout c = mantissaOf c * 2 ^ exponentOf c + 1 := by
  rw [decodeTimeout, Nat.shiftLeft_eq]

/-- A zero mantissa stands for 1, whatever the exponent (R95). -/
theorem decodeTimeout_of_mantissa_zero {c : Nat} (h : mantissaOf c = 0) : decodeTimeout c = 1 := by
  rw [decodeTimeout_eq, h, Nat.zero_mul]

/-- The added 1 never carries past 32 bits: the shifted mantissa is below `2 ^ 8`, or even. -/
theorem decodeTimeout_lt_iff (c : Nat) : decodeTimeout c < 2 ^ 32 ↔ mantissaOf c * 2 ^ exponentOf c < 2 ^ 32 := by
  have hm := mantissaOf_lt c
  rw [decodeTimeout_eq]
  cases exponentOf c with
  | zero => omega
  | succ k => rw [Nat.pow_succ, ← Nat.mul_assoc]; omega

/-- R96: a value fits 32 bits exactly when the mantissa is 0 or its bits stay within them. -/
theorem decodeTimeout_lt_iff_bitlen (c : Nat) :
    decodeTimeout c < 2 ^ 32 ↔ mantissaOf c = 0 ∨ bitlen (mantissaOf c) + exponentOf c ≤ 32 := by
  rw [decodeTimeout_lt_iff]
  by_cases hm : mantissaOf c = 0
  · simp [hm]
  · rw [← bitlen_le_iff, bitlen_mul_two_pow hm, or_iff_right hm]

/-- The largest value that fits: from exponent 24 on it is 1 more than a multiple of 2^24 (R95). -/
theorem decodeTimeout_le_of_lt {c : Nat} (h : decodeTimeout c < 2 ^ 32) : decodeTimeout c ≤ 0xFF000001 := by
  have hm := mantissaOf_lt c
  rw [decodeTimeout_lt_iff] at h
  rw [decodeTimeout_eq]
  rcases Nat.le_total (exponentOf c) 24 with he | he
  · have hproduct : mantissaOf c * 2 ^ exponentOf c ≤ 255 * 2 ^ 24 :=
      Nat.mul_le_mul (by omega) (Nat.pow_le_pow_right (by omega) he)
    omega
  · have hmultiple : 2 ^ 24 ∣ mantissaOf c * 2 ^ exponentOf c := Dvd.dvd.mul_left (Nat.pow_dvd_pow 2 he) _
    omega

/-! ### The encoder by bit length (R91, R93), on `y = x - 1` -/

/-- The exponent search finds the bits above the eighth (R93). -/
theorem leastExponent_eq : ∀ {fuel y : Nat}, y ≤ fuel → leastExponent fuel y = bitlen y - 8
  | 0, y, h => by
    obtain rfl : y = 0 := Nat.le_zero.mp h
    rfl
  | fuel + 1, y, h => by
    rw [leastExponent]
    split_ifs with hy
    · have hlen : bitlen y ≤ 8 := (bitlen_le_iff y 8).mpr (by omega)
      omega
    · have hlen : 8 < bitlen y := (lt_bitlen_iff y 8).mpr (by omega)
      rw [leastExponent_eq (by omega), Nat.shiftRight_eq_div_pow, bitlen_div_two_pow]
      omega

/-- An exponent is large enough exactly when it covers the bits above the eighth. -/
theorem div_two_pow_le_255_iff (y e : Nat) : y / 2 ^ e ≤ 255 ↔ bitlen y - 8 ≤ e := by
  have hfits := bitlen_le_iff (y / 2 ^ e) 8
  rw [bitlen_div_two_pow] at hfits
  omega

/-- The mantissa the encoder takes has 8 bits. -/
theorem encoderMantissa_lt (y : Nat) : y / 2 ^ (bitlen y - 8) < 256 :=
  Nat.lt_succ_of_le ((div_two_pow_le_255_iff y _).mpr le_rfl)

/-- The sentinel of R91. -/
@[simp] theorem encodeTimeout_zero : encodeTimeout 0 = 0 := rfl

/-- The encoder's two fields, as R91 joins them. -/
theorem encodeTimeout_succ_or (y : Nat) :
    encodeTimeout (y + 1) = ((bitlen y - 8) <<< 8) ||| (y >>> (bitlen y - 8)) := by
  rw [← leastExponent_eq (le_refl y)]
  rfl

/-- The closed form of R93: the fields do not overlap. -/
theorem encodeTimeout_succ (y : Nat) :
    encodeTimeout (y + 1) = (bitlen y - 8) * 256 + y / 2 ^ (bitlen y - 8) := by
  rw [encodeTimeout_succ_or, Nat.shiftRight_eq_div_pow, ← Nat.shiftLeft_add_eq_or_of_lt (encoderMantissa_lt y), Nat.shiftLeft_eq]

/-- The exponent of a code the encoder gives. -/
theorem exponentOf_encodeTimeout (y : Nat) : exponentOf (encodeTimeout (y + 1)) = bitlen y - 8 := by
  rw [encodeTimeout_succ, exponentOf_fields (encoderMantissa_lt y)]

/-- The mantissa of a code the encoder gives. -/
theorem mantissaOf_encodeTimeout (y : Nat) : mantissaOf (encodeTimeout (y + 1)) = y / 2 ^ (bitlen y - 8) := by
  rw [encodeTimeout_succ, mantissaOf_fields (encoderMantissa_lt y)]

/-- R97: encoding and decoding clears the low bits that the exponent counts. -/
theorem decodeTimeout_encodeTimeout (y : Nat) :
    decodeTimeout (encodeTimeout (y + 1)) = y / 2 ^ (bitlen y - 8) * 2 ^ (bitlen y - 8) + 1 := by
  rw [decodeTimeout_eq, exponentOf_encodeTimeout, mantissaOf_encodeTimeout]

/-- R99: with an exponent of 1 or more, bit 7 of the mantissa is the highest set bit of `y`. -/
theorem le_encoderMantissa {y : Nat} (h : 8 < bitlen y) : 128 ≤ y / 2 ^ (bitlen y - 8) := by
  refine (lt_bitlen_iff _ 7).mp ?_
  rw [bitlen_div_two_pow]
  omega

/-- The exponent of a decoded value is no larger than the code's own (R97, R100). -/
theorem bitlen_mantissa_mul_le {m : Nat} (hm : m < 256) (e : Nat) : bitlen (m * 2 ^ e) - 8 ≤ e := by
  rw [← div_two_pow_le_255_iff, Nat.mul_div_cancel _ (Nat.two_pow_pos e)]
  omega

/-- A decoded value survives encoding and decoding: its low bits are already 0 (R97, R100). -/
theorem decodeTimeout_encodeTimeout_decodeTimeout (c : Nat) :
    decodeTimeout (encodeTimeout (decodeTimeout c)) = decodeTimeout c := by
  have hexact : 2 ^ (bitlen (mantissaOf c * 2 ^ exponentOf c) - 8) ∣ mantissaOf c * 2 ^ exponentOf c :=
    Dvd.dvd.mul_left (Nat.pow_dvd_pow 2 (bitlen_mantissa_mul_le (mantissaOf_lt c) _)) _
  rw [decodeTimeout_eq c, decodeTimeout_encodeTimeout, Nat.div_mul_cancel hexact]

/-- R102 without a bound: a longer `y` has a larger exponent, one of the same exponent no smaller mantissa. -/
theorem encodeTimeout_mono {x y : Nat} (h : x ≤ y) : encodeTimeout x ≤ encodeTimeout y := by
  rcases x with _ | x
  · exact Nat.zero_le _
  obtain ⟨y, rfl⟩ := Nat.exists_eq_add_of_le' (Nat.one_le_of_lt h)
  have hxy : x ≤ y := Nat.le_of_succ_le_succ h
  have hlen : bitlen x - 8 ≤ bitlen y - 8 := Nat.sub_le_sub_right (bitlen_mono hxy) 8
  rw [encodeTimeout_succ, encodeTimeout_succ]
  rcases Nat.eq_or_lt_of_le hlen with heq | hlt
  · rw [heq]
    exact Nat.add_le_add_left (Nat.div_le_div_right hxy) _
  · have hm := encoderMantissa_lt x
    calc (bitlen x - 8) * 256 + x / 2 ^ (bitlen x - 8) ≤ (bitlen y - 8) * 256 := by omega
      _ ≤ (bitlen y - 8) * 256 + y / 2 ^ (bitlen y - 8) := Nat.le_add_right _ _

/-- The exponent of a 32-bit input is at most 24 (R99). -/
theorem encoderExponent_le {y : Nat} (h : y + 1 < 2 ^ 32) : bitlen y - 8 ≤ 24 := by
  have hlen : bitlen y ≤ 32 := (bitlen_le_iff y 32).mpr (by omega)
  omega

/-- The largest code of a 32-bit input (R99). -/
theorem encodeTimeout_le {x : Nat} (h : x < 2 ^ 32) : encodeTimeout x ≤ 0x18FF := by
  calc encodeTimeout x ≤ encodeTimeout (2 ^ 32 - 1) := encodeTimeout_mono (by omega)
    _ = 0x18FF := by decide

/-! ### Canonical codes (R101) -/

/-- The encoder gives canonical codes. -/
theorem canonicalCode_encodeTimeout {x : Nat} (h : x < 2 ^ 32) : canonicalCode (encodeTimeout x) := by
  rcases x with _ | y
  · exact .inl rfl
  have hle := encoderExponent_le h
  rw [canonicalCode, exponentOf_encodeTimeout, mantissaOf_encodeTimeout]
  rcases Nat.lt_or_ge 8 (bitlen y) with hlen | hlen
  · exact .inr ⟨by omega, hle, le_encoderMantissa hlen⟩
  · exact .inl (by omega)

/-- A canonical code has the exponent of its value: the bits of the shifted mantissa above the eighth. -/
theorem bitlen_sub_of_canonicalCode {c : Nat} (h : canonicalCode c) :
    bitlen (mantissaOf c * 2 ^ exponentOf c) - 8 = exponentOf c := by
  have hle := bitlen_mantissa_mul_le (mantissaOf_lt c) (exponentOf c)
  rcases h with h0 | ⟨-, -, hm⟩
  · omega
  · have hlen : 7 < bitlen (mantissaOf c) := (lt_bitlen_iff _ 7).mpr hm
    rw [bitlen_mul_two_pow (by omega)] at hle ⊢
    omega

/-- A canonical code is the code of its value (R100). -/
theorem encodeTimeout_decodeTimeout {c : Nat} (h : canonicalCode c) : encodeTimeout (decodeTimeout c) = c := by
  rw [decodeTimeout_eq, encodeTimeout_succ, bitlen_sub_of_canonicalCode h, Nat.mul_div_cancel _ (Nat.two_pow_pos _)]
  exact (code_eq_fields c).symm

/-- The value of a canonical code fits 32 bits. -/
theorem decodeTimeout_lt_of_canonicalCode {c : Nat} (h : canonicalCode c) : decodeTimeout c < 2 ^ 32 := by
  have hexp : exponentOf c ≤ 24 := by
    rcases h with h0 | ⟨-, hle, -⟩ <;> omega
  have hlen : bitlen (mantissaOf c) ≤ 8 := (bitlen_le_iff _ 8).mpr (mantissaOf_lt c)
  exact (decodeTimeout_lt_iff_bitlen c).mpr (.inr (by omega))

/-! ### Counting codes, one exponent at a time -/

/-- The codes below a whole number of exponents, counted exponent by exponent. -/
theorem card_codes (p : Nat → Prop) [DecidablePred p] (n : Nat) :
    ((Finset.range (n * 256)).filter p).card =
      ∑ e ∈ Finset.range n, ((Finset.range 256).filter fun m => p (e * 256 + m)).card := by
  induction n with
  | zero => simp
  | succ n ih =>
    rw [Finset.sum_range_succ, ← ih, Nat.succ_mul]
    simp only [← Nat.count_eq_card_filter_range, Nat.count_add]

/-- The mantissas below a bound. -/
theorem card_mantissas_lt (b : Nat) : ((Finset.range 256).filter fun m => m < b).card = min 256 b := by
  have hrange : (Finset.range 256).filter (fun m => m < b) = Finset.range (min 256 b) := by
    ext m
    simp
  rw [hrange, Finset.card_range]

/-- For the exponent `e` the value fits exactly for the mantissas below `2 ^ (32 - e)`, where 0 is always one of them (R96). -/
theorem decodeTimeout_fields_lt_iff {m : Nat} (hm : m < 256) (e : Nat) :
    decodeTimeout (e * 256 + m) < 2 ^ 32 ↔ m < 2 ^ (32 - e) := by
  rw [decodeTimeout_lt_iff_bitlen, exponentOf_fields hm, mantissaOf_fields hm, ← bitlen_le_iff]
  by_cases h0 : m = 0
  · simp [h0]
  · have hlen : 0 < bitlen m := (lt_bitlen_iff m 0).mpr (Nat.pos_of_ne_zero h0)
    omega

/-- The number of mantissas whose value fits, for one exponent (R96). -/
theorem card_fitting_mantissas (e : Nat) :
    ((Finset.range 256).filter fun m => decodeTimeout (e * 256 + m) < 2 ^ 32).card = min 256 (2 ^ (32 - e)) := by
  rw [← card_mantissas_lt]
  refine congrArg _ (Finset.filter_congr fun m hm => ?_)
  exact decodeTimeout_fields_lt_iff (Finset.mem_range.mp hm) e

/-- The number of canonical codes of one exponent: all at 0, half of them up to 24, none above (R101). -/
theorem card_canonical_mantissas (e : Nat) :
    ((Finset.range 256).filter fun m => canonicalCode (e * 256 + m)).card =
      if e = 0 then 256 else if e ≤ 24 then 128 else 0 := by
  have hfields : (Finset.range 256).filter (fun m => canonicalCode (e * 256 + m)) =
      (Finset.range 256).filter fun m => e = 0 ∨ (1 ≤ e ∧ e ≤ 24 ∧ 128 ≤ m) := by
    refine Finset.filter_congr fun m hm => ?_
    rw [canonicalCode, exponentOf_fields (Finset.mem_range.mp hm), mantissaOf_fields (Finset.mem_range.mp hm)]
  rw [hfields]
  split_ifs with h0 h24
  · simp [h0]
  · have hone : 1 ≤ e := Nat.pos_of_ne_zero h0
    have hupper : (Finset.range 256).filter (fun m => 128 ≤ m) = Finset.Ico 128 256 := by
      ext m
      simp [and_comm]
    simp only [h0, hone, h24, false_or, true_and]
    rw [hupper, Nat.card_Ico]
  · simp [h0, h24]

/-! ### ENCTO, DECTO and the round trips: the obligations -/

/-- Settles O31: the code of a 32-bit input is at most 0x18FF. -/
theorem enctoOutcome : Obligations.EnctoOutcome := by
  refine ⟨fun s => ⟨exec_encto s, (encodeTimeout_le s.opa.isLt).trans_lt (by norm_num)⟩, ?_⟩
  decide

/-- Settles O32: the exponents that suffice are those from the bit length less 8 on. -/
theorem encodeTakesSmallestExponent : Obligations.EncodeTakesSmallestExponent := by
  refine ⟨encodeTimeout_zero, fun x hx => ?_⟩
  obtain ⟨y, rfl⟩ := Nat.exists_eq_succ_of_ne_zero hx
  exact ⟨bitlen y - 8, (div_two_pow_le_255_iff y _).mpr le_rfl,
    fun k hk => Nat.lt_of_not_le fun hsuffices => hk.not_ge ((div_two_pow_le_255_iff y k).mp hsuffices), encodeTimeout_succ_or y⟩

/-- Settles O33: the exponent search gives the bit length less 8, and the two fields do not overlap. -/
theorem encodeClosedForm : Obligations.EncodeClosedForm := by
  intro x hx
  obtain ⟨y, rfl⟩ := Nat.exists_eq_add_of_le' hx
  rw [Nat.zero_max]
  exact encodeTimeout_succ y

/-- Settles O34: the operand check, then the result check, decide the outcome; the value is 1 more than the shifted mantissa. -/
theorem dectoOutcome : Obligations.DectoOutcome := by
  refine ⟨fun s => ⟨fun hwide => ?_, fun hopa hrange => ?_, fun hopa hfits => ?_⟩, fun c _ => ?_, fun c => Nat.succ_ne_zero _,
    fun c hm => decodeTimeout_of_mantissa_zero hm, fun c _ => ?_, fun c _ hfits => decodeTimeout_le_of_lt hfits, ?_⟩
  · rw [exec_decto, operandEncoded_eq, if_neg (Nat.not_lt.mpr hwide)]
    rfl
  · rw [exec_decto, operandEncoded_eq, if_pos hopa, except_ok_bind, finishRes_fitResult_of_le hrange]
    rfl
  · rw [exec_decto, operandEncoded_eq, if_pos hopa, except_ok_bind, finishRes_fitResult_of_lt hfits]
    rfl
  · rw [decodeTimeout_eq, mantissaOf_eq, exponentOf_eq]
  · rw [← Nat.not_lt, decodeTimeout_lt_iff_bitlen, not_or, Nat.not_le]
  · decide

/-- Settles O36: the codes that fit are counted exponent by exponent. -/
theorem decodeFitsExactlyWhen : Obligations.DecodeFitsExactlyWhen := by
  refine ⟨fun c _ => decodeTimeout_lt_iff_bitlen c, fun c => Nat.le_add_left 1 _, ?_⟩
  rw [show 65536 = 256 * 256 from rfl, card_codes]
  simp only [card_fitting_mantissas]
  decide +kernel

/-- Settles O37: with `y = x - 1`, the round trip replaces `y` by its largest multiple of `2 ^ e` up to it. -/
theorem roundTripFromClocks : Obligations.RoundTripFromClocks := by
  intro x hx _
  obtain ⟨y, rfl⟩ := Nat.exists_eq_add_of_le' hx
  rw [decodeTimeout_encodeTimeout, exponentOf_encodeTimeout, Nat.add_sub_cancel, Nat.shiftLeft_eq, Nat.shiftRight_eq_div_pow]
  have hsplit := Nat.div_add_mod' y (2 ^ (bitlen y - 8))
  have hloss : y % 2 ^ (bitlen y - 8) < 2 ^ (bitlen y - 8) := Nat.mod_lt _ (Nat.two_pow_pos _)
  refine ⟨rfl, by omega, by omega, by omega, by omega, fun hsmall => ?_, fun c _ hc => ?_⟩
  · have hlen : bitlen y - 8 = 0 := Nat.sub_eq_zero_of_le ((bitlen_le_iff y 8).mpr (by omega))
    simp [hlen]
  · rw [← decodeTimeout_encodeTimeout, ← hc, decodeTimeout_encodeTimeout_decodeTimeout]

/-- Settles O38: both fields are 0 only for `x - 1 = 0`. -/
theorem sentinelIsNotInverse : Obligations.SentinelIsNotInverse := by
  refine ⟨fun x => ?_, by decide, by decide, by decide, by decide⟩
  rcases x with _ | y
  · simp
  rw [encodeTimeout_succ]
  constructor
  · intro h
    obtain ⟨hexp, hman⟩ := Nat.add_eq_zero_iff.mp h
    have hexp0 : bitlen y - 8 = 0 := by omega
    rw [hexp0, Nat.pow_zero, Nat.div_one] at hman
    omega
  · intro h
    obtain rfl : y = 0 := by omega
    rfl

/-- Settles O39: the exponent is the bit length of `x - 1` less 8, at most 24. -/
theorem encoderOutputRange : Obligations.EncoderOutputRange := by
  intro x hx hx32
  obtain ⟨y, rfl⟩ := Nat.exists_eq_add_of_le' hx
  have hle := encoderExponent_le hx32
  have h8 := bitlen_le_iff y 8
  have h31 := lt_bitlen_iff y 31
  refine ⟨?_, ?_, fun hexp => ?_, ?_, encodeTimeout_le hx32, fun hcode => ?_, fun hlarge => ?_⟩
  · rwa [exponentOf_encodeTimeout]
  · rw [exponentOf_encodeTimeout]
    omega
  · rw [exponentOf_encodeTimeout] at hexp ⊢
    rw [mantissaOf_encodeTimeout]
    have hm := encoderMantissa_lt y
    exact ⟨le_encoderMantissa (by omega), by omega, by rw [Nat.add_sub_cancel]; omega⟩
  · rw [exponentOf_encodeTimeout]
    omega
  · have hexp : bitlen y - 8 = 24 := by rw [← exponentOf_encodeTimeout, hcode]; rfl
    have hman : y / 2 ^ 24 = 255 := by rw [← hexp, ← mantissaOf_encodeTimeout, hcode]; rfl
    omega
  · refine Nat.le_antisymm (encodeTimeout_le hx32) ?_
    calc 0x18FF = encodeTimeout 0xFF000001 := by decide
      _ ≤ encodeTimeout (y + 1) := encodeTimeout_mono hlarge

/-- Settles O40: the encoder gives the canonical code of a value, and a canonical code has its value's fields. -/
theorem roundTripFromCode : Obligations.RoundTripFromCode := by
  refine ⟨fun c _ hfits => ?_, by decide, by decide, by decide⟩
  have hcanonical := canonicalCode_encodeTimeout hfits
  refine ⟨⟨fun h => h ▸ hcanonical, encodeTimeout_decodeTimeout⟩, hcanonical, decodeTimeout_encodeTimeout_decodeTimeout c,
    fun hm => ?_⟩
  rw [decodeTimeout_of_mantissa_zero hm]
  rfl

/-- Settles O41: a canonical code is the code of its own value, and since the encoder is monotone its values keep the codes' order. -/
theorem canonicalCodesAreTheEncoders : Obligations.CanonicalCodesAreTheEncoders := by
  refine ⟨fun c _ => ⟨fun h => ?_, ?_⟩, ?_, fun c d hcd _ hc hd => ?_⟩
  · exact ⟨decodeTimeout c, decodeTimeout_lt_of_canonicalCode h, encodeTimeout_decodeTimeout h⟩
  · rintro ⟨x, hx, rfl⟩
    exact canonicalCode_encodeTimeout hx
  · rw [show 65536 = 256 * 256 from rfl, card_codes]
    simp only [card_canonical_mantissas]
    decide +kernel
  · by_contra hvalues
    have hcodes := encodeTimeout_mono (Nat.not_lt.mp hvalues)
    rw [encodeTimeout_decodeTimeout hc, encodeTimeout_decodeTimeout hd] at hcodes
    omega

/-- Settles O42: the order of the codes is that of exponent, then mantissa. -/
theorem encodeMonotone : Obligations.EncodeMonotone :=
  fun _ _ hxy _ => encodeTimeout_mono hxy

end Sys2Proof.Machine
end

section
/-! PROOFS. The family 41_measurement_decoder.md: the gain correction and GAINC (R121 to R123), UNPACK and the fields of MEAS (R124 to
R126). -/

namespace Sys2Proof.Machine

/-! ### The gain correction (R121, R123) -/

/-- R121's rounded quotient in plain arithmetic. -/
theorem gainCorrect_eq (r : Nat) : gainCorrect r = (r * 2011 + 1024) / 2048 :=
  Nat.shiftRight_eq_div_pow _ 11

/-- The correction keeps the order of its operands. -/
theorem gainCorrect_mono {r q : Nat} (h : r ≤ q) : gainCorrect r ≤ gainCorrect q := by
  rw [gainCorrect_eq, gainCorrect_eq]
  gcongr

/-- The largest corrected distance is that of the largest 16-bit operand. -/
theorem gainCorrect_le {r : Nat} (h : r ≤ 65535) : gainCorrect r ≤ 64351 :=
  gainCorrect_mono h

/-- The corrected distance of a 16-bit operand fits 16 bits. -/
theorem gainCorrect_lt {r : Nat} (h : r ≤ 65535) : gainCorrect r < 2 ^ 16 :=
  (gainCorrect_le h).trans_lt (by norm_num)

/-- The correction takes off 37 / 2048 of its operand, which rounds to nothing up to 27. -/
theorem gainCorrect_of_le {r : Nat} (h : r ≤ 27) : gainCorrect r = r := by
  rw [gainCorrect_eq]
  omega

/-- From 28 on the correction takes off at least 1. -/
theorem gainCorrect_lt_self {r : Nat} (h : 28 ≤ r) : gainCorrect r < r := by
  rw [gainCorrect_eq]
  omega

/-- The operands the correction keeps are those up to 27. -/
theorem gainCorrect_eq_self_iff (r : Nat) : gainCorrect r = r ↔ r ≤ 27 := by
  refine ⟨fun h => ?_, gainCorrect_of_le⟩
  by_contra hr
  exact (gainCorrect_lt_self (Nat.lt_of_not_le hr)).ne h

/-- The correction never increases a distance. -/
theorem gainCorrect_le_self (r : Nat) : gainCorrect r ≤ r := by
  rcases Nat.lt_or_ge r 28 with h | h
  · exact (gainCorrect_of_le (Nat.le_of_lt_succ h)).le
  · exact (gainCorrect_lt_self h).le

/-! ### The fields of MEAS (10_state.md R27) -/

/-- STATUS_CODE of a packed MEAS is the low 8 bits of the status. -/
theorem measStatusCode_packMeas (s n d : Nat) : measStatusCode (packMeas s n d) = BitVec.ofNat 8 s := by
  rw [measStatusCode, packMeas, BitVec.extractLsb'_append_eq_of_le (by decide)]
  exact BitVec.extractLsb'_append_eq_left

/-- STREAM of a packed MEAS is the low 8 bits of the stream count. -/
theorem measStream_packMeas (s n d : Nat) : measStream (packMeas s n d) = BitVec.ofNat 8 n := by
  rw [measStream, packMeas, BitVec.extractLsb'_append_eq_of_le (by decide)]
  exact BitVec.extractLsb'_append_eq_right

/-- DIST_MM of a packed MEAS is the low 16 bits of the distance. -/
theorem measDistMm_packMeas (s n d : Nat) : measDistMm (packMeas s n d) = BitVec.ofNat 16 d :=
  BitVec.extractLsb'_append_eq_right

/-- A MEAS is its three fields side by side. -/
theorem meas_toNat (m : Word) :
    m.toNat = (measStatusCode m).toNat * 2 ^ 24 + (measStream m).toNat * 2 ^ 16 + (measDistMm m).toNat := by
  simp only [measStatusCode, measStream, measDistMm, BitVec.extractLsb'_toNat, Nat.shiftRight_eq_div_pow]
  have hm : m.toNat < 2 ^ 32 := m.isLt
  omega

/-- MEAS has no bit outside its three fields. -/
theorem meas_ext {m n : Word} (hstatus : measStatusCode m = measStatusCode n) (hstream : measStream m = measStream n)
    (hdist : measDistMm m = measDistMm n) : m = n := by
  apply BitVec.eq_of_toNat_eq
  rw [meas_toNat m, meas_toNat n, hstatus, hstream, hdist]

/-! ### What UNPACK reads of RB (R120) -/

/-- The final range is the number of RB[13] and RB[14], the high byte first. -/
theorem operandFinalRange_eq (m : Memory) : operandFinalRange m = (m.read 13).toNat * 256 + (m.read 14).toNat := by
  rw [operandFinalRange, memRead, memRead_one]

/-- Two bytes make a 16-bit final range. -/
theorem operandFinalRange_le (m : Memory) : operandFinalRange m ≤ 65535 := by
  have hhigh : (m.read 13).toNat < 2 ^ 8 := (m.read 13).isLt
  have hlow : (m.read 14).toNat < 2 ^ 8 := (m.read 14).isLt
  rw [operandFinalRange_eq]
  omega

/-- UNPACK's function in terms of the block's bytes (R124). -/
theorem unpackBlock_eq (m : Memory) :
    unpackBlock m = ((m.read 0).toNat, (m.read 2).toNat, gainCorrect (operandFinalRange m)) := by
  rw [unpackBlock, operandRangeStatus, operandStreamCount, memRead_one, memRead_one]

/-- The MEAS that UNPACK writes has RB[0], RB[2] and the corrected final range in its fields (R125). -/
theorem unpack_fields {s t : State} (h : exec .unpack s = .next t) :
    measStatusCode t.meas = s.rb.read 0 ∧ measStream t.meas = s.rb.read 2 ∧
    measDistMm t.meas = BitVec.ofNat 16 (gainCorrect (operandFinalRange s.rb)) := by
  rw [exec_unpack, unpackBlock_eq] at h
  cases h
  rw [succeedMeas_meas, measStatusCode_packMeas, measStream_packMeas, measDistMm_packMeas, BitVec.ofNat_toNat, BitVec.ofNat_toNat,
    BitVec.setWidth_eq, BitVec.setWidth_eq]
  exact ⟨rfl, rfl, rfl⟩

/-- The corrected final range is never cut off in DIST_MM. -/
theorem measDistMm_unpack_toNat {s t : State} (h : exec .unpack s = .next t) :
    (measDistMm t.meas).toNat = gainCorrect (operandFinalRange s.rb) := by
  obtain ⟨-, -, hdist⟩ := unpack_fields h
  rw [hdist, BitVec.toNat_ofNat, Nat.mod_eq_of_lt (gainCorrect_lt (operandFinalRange_le s.rb))]

/-! ### The obligations -/

/-- Settles O44: the operand check alone decides the outcome. -/
theorem gaincOutcome : Obligations.GaincOutcome := by
  refine ⟨fun s => ⟨fun hwide => ?_, fun hopa => ?_⟩, fun r => gainCorrect_of_le, fun r => gainCorrect_lt_self, by decide⟩
  · rw [exec_gainc, operandRawRange_eq, if_neg (Nat.not_lt.mpr hwide)]
    rfl
  · rw [show 2 ^ 11 = 2048 from rfl, ← gainCorrect_eq]
    refine ⟨?_, gainCorrect_lt (Nat.le_of_lt_succ hopa)⟩
    rw [exec_gainc, operandRawRange_eq, if_pos hopa]
    rfl

/-- Settles O47: the fields are the bytes UNPACK reads, and a MEAS is its fields side by side. -/
theorem unpackOutcome : Obligations.UnpackOutcome := by
  intro s
  have h := exec_unpack s
  obtain ⟨hstatus, hstream, -⟩ := unpack_fields h
  have hdist := measDistMm_unpack_toNat h
  refine ⟨_, h, hstatus, hstream, ?_, ?_⟩
  · rw [← operandFinalRange_eq, ← gainCorrect_eq]
    exact hdist
  · rw [← hstatus, ← hstream]
    exact meas_toNat _

/-- Settles O48: each field is a function of its own bytes, and the fields are all of MEAS. -/
theorem unpackFieldsAreIndependent : Obligations.UnpackFieldsAreIndependent := by
  intro s m t u ht hu
  obtain ⟨htstatus, htstream, htdist⟩ := unpack_fields ht
  obtain ⟨hustatus, hustream, hudist⟩ := unpack_fields hu
  have status (h : m.read 0 = s.rb.read 0) : measStatusCode u.meas = measStatusCode t.meas := by
    rw [hustatus, htstatus, h]
  have stream (h : m.read 2 = s.rb.read 2) : measStream u.meas = measStream t.meas := by
    rw [hustream, htstream, h]
  have dist (hhigh : m.read 13 = s.rb.read 13) (hlow : m.read 14 = s.rb.read 14) :
      measDistMm u.meas = measDistMm t.meas := by
    rw [hudist, htdist, operandFinalRange_eq, operandFinalRange_eq, hhigh, hlow]
  refine ⟨fun h => ?_, fun h => ?_, fun h => ?_, fun h => ?_⟩
  · exact meas_ext (status (h 0 (by decide))) (stream (h 2 (by decide))) (dist (h 13 (by decide)) (h 14 (by decide)))
  · exact ⟨stream (h 2 (by decide)), dist (h 13 (by decide)) (h 14 (by decide))⟩
  · exact ⟨status (h 0 (by decide)), dist (h 13 (by decide)) (h 14 (by decide))⟩
  · exact ⟨status (h 0 (by decide) (by decide)), stream (h 2 (by decide) (by decide))⟩

/-- Settles O45: the floor of the quotient plus a half, doubled to stay in whole numbers. -/
theorem gainCorrectRoundsToNearest : Obligations.GainCorrectRoundsToNearest := by
  intro r
  refine ⟨rfl, ?_⟩
  rw [gainCorrect_eq]
  omega

/-- Settles O46: the correction is monotone, so the bounds are those at 65535. -/
theorem gainCorrectLaws : Obligations.GainCorrectLaws := by
  refine ⟨fun r hr => ?_, fun r q hrq _ => gainCorrect_mono hrq, rfl, by decide⟩
  exact ⟨by omega, gainCorrect_le_self r, gainCorrect_le hr, gainCorrect_lt hr, gainCorrect_eq_self_iff r⟩

end Sys2Proof.Machine
end

section
/-! PROOFS. The family 60_exceptions.md: the code an error reports (R140, R145), what a failed command leaves (R146), and the zero
sentinel (R150). -/

namespace Sys2Proof.Machine

/-- A command write that goes through is a command that fits CMD's 8 bits, run whole (20_memory.md R43, R45). -/
theorem hostWrite_cmd_next {c : Nat} {s t : State} (h : hostWrite 0x00 c s = .next t) :
    c < 256 ∧ runCommand (BitVec.ofNat 8 c) s = .next t := by
  have hport : hostWrite 0x00 c s = if c < 256 then runCommand (BitVec.ofNat 8 c) s else .refused (.valueTooWide .cmd c) :=
    hostWrite_addressOf .cmd c s
  rw [hport] at h
  split_ifs at h with hc
  exact ⟨hc, h⟩

/-! ### What each check contributes to STATUS: its own error, else the outcome of what follows it (R145) -/

/-- An operand that does not fit is BAD_OPERAND, whatever the rest of the command would raise (R142). -/
theorem finishRes_fitOperand_status (s : State) (bits : Nat) (r : Word) (f : Nat → Except Err Nat) :
    (s.finishRes (fitOperand bits r >>= f)).status =
      if 2 ^ bits ≤ r.toNat then 2 else (s.finishRes (f r.toNat)).status := by
  by_cases hwide : 2 ^ bits ≤ r.toNat
  · rw [fitOperand_eq, if_neg (Nat.not_lt.mpr hwide), if_pos hwide]
    rfl
  · rw [fitOperand_eq, if_pos (Nat.not_le.mp hwide), if_neg hwide, except_ok_bind]

/-- A zero divisor is DIV_ZERO, whatever the rest of the command would raise (R143). -/
theorem finishRes_nonZeroDivisor_status (s : State) (r : Word) (f : Nat → Except Err Nat) :
    (s.finishRes (nonZeroDivisor r >>= f)).status = if r = 0 then 3 else (s.finishRes (f r.toNat)).status := by
  rw [nonZeroDivisor_eq]
  split_ifs with hzero
  · rfl
  · rw [except_ok_bind]

/-- A result of 2^32 or more is RANGE, any other is success (R144). -/
theorem finishRes_fitResult_status (s : State) (r : Nat) :
    (s.finishRes (fitResult r)).status = if 2 ^ 32 ≤ r then 4 else 0 := by
  split_ifs with hrange
  · rw [finishRes_fitResult_of_le hrange]
    rfl
  · rw [finishRes_fitResult_of_lt (Nat.not_le.mp hrange)]
    rfl

/-! ### The code each command reports (R140) -/

/-- MACROP: BAD_OPERAND before RANGE. -/
theorem exec_macrop_status {s t : State} (h : exec .macrop s = .next t) :
    t.status = if 2 ^ 8 ≤ s.opa.toNat then 2 else if 2 ^ 32 ≤ macroPeriod s.opa.toNat s.fosc.toNat then 4 else 0 := by
  rw [exec_macrop] at h
  cases h
  rw [operandVcsel, finishRes_fitOperand_status, finishRes_fitResult_status]
  rfl

/-- US2MCLK: DIV_ZERO before RANGE. -/
theorem exec_us2mclk_status {s t : State} (h : exec .us2mclk s = .next t) :
    t.status = if s.opb = 0 then 3 else if 2 ^ 32 ≤ usToMclks s.opa.toNat s.opb.toNat then 4 else 0 := by
  rw [exec_us2mclk] at h
  cases h
  rw [operandMacroPeriod, finishRes_nonZeroDivisor_status, finishRes_fitResult_status]

/-- ENCTO raises no error. -/
theorem exec_encto_status {s t : State} (h : exec .encto s = .next t) : t.status = 0 := by
  rw [exec_encto] at h
  cases h
  rfl

/-- DECTO: BAD_OPERAND before RANGE. -/
theorem exec_decto_status {s t : State} (h : exec .decto s = .next t) :
    t.status = if 2 ^ 16 ≤ s.opa.toNat then 2 else if 2 ^ 32 ≤ decodeTimeout s.opa.toNat then 4 else 0 := by
  rw [exec_decto] at h
  cases h
  rw [operandEncoded, finishRes_fitOperand_status, finishRes_fitResult_status]
  rfl

/-- GAINC: BAD_OPERAND only. -/
theorem exec_gainc_status {s t : State} (h : exec .gainc s = .next t) :
    t.status = if 2 ^ 16 ≤ s.opa.toNat then 2 else 0 := by
  rw [exec_gainc] at h
  cases h
  rw [operandRawRange, finishRes_fitOperand_status]
  rfl

/-- UNPACK raises no error. -/
theorem exec_unpack_status {s t : State} (h : exec .unpack s = .next t) : t.status = 0 := by
  rw [exec_unpack] at h
  cases h
  rfl

/-! ### The obligations -/

/-- Settles O51: a reserved code runs no command, and a defined code's checks come in the order of the rule. -/
theorem errorCodeFollowsPriority : Obligations.ErrorCodeFollowsPriority := by
  intro s t c h
  obtain ⟨hc, -⟩ := hostWrite_cmd_next h
  rw [(commandWriteFollowsDecoder s c hc).1] at h
  split_ifs at h with h1 h2 h3 h4 h5 h6
  · subst h1; simpa using exec_macrop_status h
  · subst h2; simpa using exec_us2mclk_status h
  · subst h3; simpa using exec_encto_status h
  · subst h4; simpa using exec_decto_status h
  · subst h5; simpa using exec_gainc_status h
  · subst h6; simpa using exec_unpack_status h
  · cases h
    exact (if_pos (by omega)).symm

/-- Settles O52: a command write that ends in success has STATUS 0, and an error touches STATUS only. -/
theorem failedCommandChangesOnlyStatus : Obligations.FailedCommandChangesOnlyStatus := by
  intro s t c h hfailed
  obtain ⟨-, hrun⟩ := hostWrite_cmd_next h
  rcases runCommand_cases (BitVec.ofNat 8 c) s with ⟨e, he⟩ | ⟨r, hr⟩ | ⟨m, hm⟩
  · cases he.symm.trans hrun
    rfl
  · cases hr.symm.trans hrun
    exact absurd (succeedRes_status s r) hfailed
  · cases hm.symm.trans hrun
    exact absurd (succeedMeas_status s m) hfailed

/-- Settles O23: the sentinel 0 fits RES, and the checks of the operand and of the divisor come first. -/
theorem zeroFrequencyGivesSentinel : Obligations.ZeroFrequencyGivesSentinel := by
  obtain ⟨macrop, sentinel, -⟩ := macropOutcome
  obtain ⟨us2mclk, -⟩ := us2mclkOutcome
  intro s
  obtain ⟨wide, -, fits⟩ := macrop s
  obtain ⟨divZero, -⟩ := us2mclk s
  refine ⟨fun hfosc hopa => ?_, fun _ => wide, divZero⟩
  have hperiod : macroPeriod s.opa.toNat s.fosc.toNat = 0 := by
    rw [hfosc]
    exact sentinel _
  rw [fits hopa (by rw [hperiod]; norm_num), hperiod]
  rfl

end Sys2Proof.Machine
end

section
/-! PROOFS. The family of the statements on the whole machine: how a command ends and what that depends on (R12, R20 to R29, R43), the
canonical form of RB, the events a step takes up (R45, R69, R170), and the invariant every step keeps (R25). -/

namespace Sys2Proof.Machine

/-! ### How a command ends, as a function of its operand items -/

/-- What a command writes: STATUS always, RES and MEAS only where a value is given (00_scope.md R12). -/
structure CommandEnd where
  status : Byte
  res : Option Word
  meas : Option Word

/-- The end of a scalar command whose checks gave an error or a result. -/
def scalarEnd : Except Err Nat → CommandEnd
  | .error e => ⟨statusOf (errCode e), none, none⟩
  | .ok r => ⟨statusOf 0, some (BitVec.ofNat 32 r), none⟩

/-- The end of a command from the values of FOSC, OPA, OPB and RB (30_encoding.md R63): no other item is an argument. -/
def commandEnd (f : Half) (a b : Word) (m : Memory) : Instr → CommandEnd
  | .macrop => scalarEnd (do
      let v ← fitOperand Config.vcselBits a
      fitResult (macroPeriod v f.toNat))
  | .us2mclk => scalarEnd (do
      let mp ← nonZeroDivisor b
      fitResult (usToMclks a.toNat mp))
  | .encto => scalarEnd (.ok (encodeTimeout a.toNat))
  | .decto => scalarEnd (do
      let c ← fitOperand Config.encodedBits a
      fitResult (decodeTimeout c))
  | .gainc => scalarEnd (do
      let r ← fitOperand Config.rawRangeBits a
      .ok (gainCorrect r))
  | .unpack => ⟨statusOf 0, none, some (packMeas (unpackBlock m).1 (unpackBlock m).2.1 (unpackBlock m).2.2)⟩

/-- The end of a write of `c` to CMD: that of the decoded command, or ILLEGAL_CMD (30_encoding.md R67). -/
def cmdWriteEnd (f : Half) (a b : Word) (m : Memory) (c : Byte) : CommandEnd :=
  match decode c with
  | .ok i => commandEnd f a b m i
  | .error _ => scalarEnd (.error .illegalCmd)

/-- The state after a command ended in `x`: the frame of R20's table is the record update. -/
def State.endWith (s : State) (x : CommandEnd) : State :=
  { s with status := x.status, res := x.res.getD s.res, meas := x.meas.getD s.meas }

/-- Ending a scalar command is one of the two forms of `State.finishRes`. -/
theorem finishRes_eq_endWith (s : State) (x : Except Err Nat) : s.finishRes x = s.endWith (scalarEnd x) := by
  cases x <;> rfl

/-- Every command answers a next state, and its operand items decide what it writes. -/
theorem exec_eq_endWith (i : Instr) (s : State) :
    exec i s = .next (s.endWith (commandEnd s.fosc s.opa s.opb s.rb i)) := by
  cases i with
  | macrop => exact congrArg _ (finishRes_eq_endWith s _)
  | us2mclk => exact congrArg _ (finishRes_eq_endWith s _)
  | encto => rfl
  | decto => exact congrArg _ (finishRes_eq_endWith s _)
  | gainc => exact congrArg _ (finishRes_eq_endWith s _)
  | unpack => rfl

/-- The same of a command write, reserved codes included (R65). -/
theorem runCommand_eq_endWith (c : Byte) (s : State) :
    runCommand c s = .next (s.endWith (cmdWriteEnd s.fosc s.opa s.opb s.rb c)) := by
  rw [runCommand, cmdWriteEnd]
  cases decode c with
  | ok i => exact exec_eq_endWith i s
  | error _ => rfl

/-- The next state of a command, in that form. -/
theorem eq_endWith_of_exec {i : Instr} {s t : State} (h : exec i s = .next t) :
    t = s.endWith (commandEnd s.fosc s.opa s.opb s.rb i) := by
  rw [exec_eq_endWith] at h
  cases h
  rfl

/-- Ending twice in the same way is ending once. -/
theorem endWith_endWith (s : State) (x : CommandEnd) : (s.endWith x).endWith x = s.endWith x := by
  obtain ⟨_, _ | _, _ | _⟩ := x <;> rfl

/-- A register takes the value a command writes, whatever it held, or keeps what it held. -/
theorem getD_eq_or_kept (x : Option Word) (u v : Word) : x.getD u = x.getD v ∨ (x.getD u = u ∧ x.getD v = v) := by
  cases x with
  | none => exact .inr ⟨rfl, rfl⟩
  | some w => exact .inl rfl

/-- A scalar command leaves a legal STATUS. -/
theorem scalarEnd_status_le (x : Except Err Nat) : statusLegal (scalarEnd x).status := by
  cases x with
  | error e => exact statusOf_errCode_le e
  | ok r => exact Nat.zero_le 4

/-- A scalar command does not write MEAS (R27). -/
theorem scalarEnd_meas (x : Except Err Nat) : (scalarEnd x).meas = none := by
  cases x <;> rfl

section
variable {f : Half} {a b : Word} {m : Memory}

/-- Every command leaves a legal STATUS (R25). -/
theorem commandEnd_status_le (i : Instr) : statusLegal (commandEnd f a b m i).status := by
  cases i with
  | unpack => exact Nat.zero_le 4
  | _ => exact scalarEnd_status_le _

/-- Every command write leaves a legal STATUS. -/
theorem cmdWriteEnd_status_le (c : Byte) : statusLegal (cmdWriteEnd f a b m c).status := by
  rw [cmdWriteEnd]
  cases decode c with
  | ok i => exact commandEnd_status_le i
  | error _ => exact scalarEnd_status_le _

/-- Only UNPACK writes MEAS (R27). -/
theorem commandEnd_meas {i : Instr} (hi : i ≠ .unpack) : (commandEnd f a b m i).meas = none := by
  cases i with
  | unpack => exact absurd rfl hi
  | _ => exact scalarEnd_meas _

/-- MACROP ends with its period when its operand and its result fit (40_timing_calculator.md R82). -/
theorem commandEnd_macrop_of_fits (ha : a.toNat < 2 ^ 8) (hfits : macroPeriod a.toNat f.toNat < 2 ^ 32) :
    commandEnd f a b m .macrop = scalarEnd (.ok (macroPeriod a.toNat f.toNat)) := by
  have hoperand : fitOperand Config.vcselBits a = .ok a.toNat := if_pos ha
  rw [commandEnd, hoperand, except_ok_bind, fitResult_eq, if_pos hfits]

/-- US2MCLK ends with the clocks when its divisor is not 0 and its result fits (R88). -/
theorem commandEnd_us2mclk_of_fits (hb : b ≠ 0) (hfits : usToMclks a.toNat b.toNat < 2 ^ 32) :
    commandEnd f a b m .us2mclk = scalarEnd (.ok (usToMclks a.toNat b.toNat)) := by
  rw [commandEnd, nonZeroDivisor_eq, if_neg hb, except_ok_bind, fitResult_eq, if_pos hfits]

/-- Only US2MCLK reads OPB (R22). -/
theorem commandEnd_ignores_opb {i : Instr} (hi : i ≠ .us2mclk) (b' : Word) :
    commandEnd f a b' m i = commandEnd f a b m i := by
  cases i with
  | us2mclk => exact absurd rfl hi
  | _ => rfl

/-- Only MACROP reads FOSC (R26). -/
theorem commandEnd_ignores_fosc {i : Instr} (hi : i ≠ .macrop) (f' : Half) :
    commandEnd f' a b m i = commandEnd f a b m i := by
  cases i with
  | macrop => exact absurd rfl hi
  | _ => rfl

/-- Only UNPACK reads RB (R28). -/
theorem commandEnd_ignores_rb {i : Instr} (hi : i ≠ .unpack) (m' : Memory) :
    commandEnd f a b m' i = commandEnd f a b m i := by
  cases i with
  | unpack => exact absurd rfl hi
  | _ => rfl

end

/-! ### Canonical memories -/

/-- The first cell of a list reads back. -/
@[simp] theorem memory_read_head (k : Nat) (b : Byte) (m : Memory) : Memory.read ((k, b) :: m) k = b :=
  if_pos rfl

/-- A canonical list does not begin after another that reads alike, for below its first offset it reads 0. -/
theorem memory_head_le {lo k j : Nat} {b c : Byte} {m n : Memory} (hm : Memory.wfFrom lo ((k, b) :: m) = true)
    (hn : Memory.wfFrom lo ((j, c) :: n) = true) (hread : ∀ a, Memory.read ((k, b) :: m) a = Memory.read ((j, c) :: n) a) :
    j ≤ k := by
  obtain ⟨-, -, hb, -⟩ := memory_wfFrom_cons.mp hm
  obtain ⟨-, hcells⟩ := memory_wfFrom_cons.mp hn
  by_contra hlt
  have hzero : Memory.read ((j, c) :: n) k = 0 :=
    memory_read_below (Nat.lt_of_not_le hlt) (memory_wfFrom_cons.mpr ⟨le_refl j, hcells⟩)
  rw [← hread, memory_read_head] at hzero
  exact hb hzero

/-- A canonical list that is not empty does not read like the empty one. -/
theorem memory_read_cons_ne_nil {lo k : Nat} {b : Byte} {m : Memory} (hm : Memory.wfFrom lo ((k, b) :: m) = true) :
    Memory.read ((k, b) :: m) k ≠ Memory.read [] k := by
  obtain ⟨-, -, hb, -⟩ := memory_wfFrom_cons.mp hm
  rwa [memory_read_head, memory_read_nil]

/-- Canonical lists from one bound on that read alike are equal: cell by cell, the first offsets and then the first bytes agree. -/
theorem memory_ext_from : ∀ {lo : Nat} {m n : Memory}, Memory.wfFrom lo m = true → Memory.wfFrom lo n = true →
    (∀ a, Memory.read m a = Memory.read n a) → m = n
  | _, [], [], _, _, _ => rfl
  | _, [], (_, _) :: _, _, hn, hread => absurd (hread _).symm (memory_read_cons_ne_nil hn)
  | _, (_, _) :: _, [], hm, _, hread => absurd (hread _) (memory_read_cons_ne_nil hm)
  | lo, (k, b) :: m, (j, c) :: n, hm, hn, hread => by
    obtain rfl : k = j := (memory_head_le hn hm fun a => (hread a).symm).antisymm (memory_head_le hm hn hread)
    obtain rfl : b = c := by simpa using hread k
    obtain ⟨-, -, -, hm'⟩ := memory_wfFrom_cons.mp hm
    obtain ⟨-, -, -, hn'⟩ := memory_wfFrom_cons.mp hn
    have htail (a : Nat) : Memory.read m a = Memory.read n a := by
      by_cases ha : a = k
      · rw [ha, memory_read_below (Nat.lt_succ_self k) hm', memory_read_below (Nat.lt_succ_self k) hn']
      · simpa [Memory.read, ha] using hread a
    rw [memory_ext_from hm' hn' htail]

/-! ### What a host write keeps -/

/-- A host write keeps the invariant: a command leaves a legal STATUS, a store to RB keeps its form. -/
theorem hostWrite_keeps_inv {a v : Nat} {s t : State} (hs : StateInv s) (h : hostWrite a v s = .next t) : StateInv t := by
  obtain ⟨hstatus, hrb⟩ := hs
  rcases hostWrite_next h with ⟨-, -, hrun⟩ | ⟨f, rfl⟩ | ⟨x, rfl⟩ | ⟨x, rfl⟩ | ⟨i, b, hi, rfl⟩
  · rw [runCommand_eq_endWith] at hrun
    cases hrun
    exact ⟨cmdWriteEnd_status_le _, hrb⟩
  · exact ⟨hstatus, hrb⟩
  · exact ⟨hstatus, hrb⟩
  · exact ⟨hstatus, hrb⟩
  · exact ⟨hstatus, memory_write_wf b hi hrb⟩

/-- A host write leaves the events still to come as they are. -/
theorem hostWrite_pending {a v : Nat} {s t : State} (h : hostWrite a v s = .next t) : t.pending = s.pending := by
  rcases hostWrite_next h with ⟨-, -, hrun⟩ | ⟨f, rfl⟩ | ⟨x, rfl⟩ | ⟨x, rfl⟩ | ⟨i, b, hi, rfl⟩
  · rw [runCommand_eq_endWith] at hrun
    cases hrun
    rfl
  all_goals rfl

/-- A well-formed host write answers a next state, for there is no fault and it is not refused (R45, R159). -/
theorem hostWrite_next_of_wf {a v : Nat} (h : (HostAccess.write a v).wf = true) (s : State) :
    ∃ t, hostWrite a v s = .next t := by
  cases hw : hostWrite a v s with
  | next t => exact ⟨t, rfl⟩
  | fault r => cases r
  | refused r =>
    have hill := (hostWrite_refused_iff_not_wf a v s).mp ⟨r, hw⟩
    exact absurd (h.symm.trans hill) (by decide)

/-- A well-formed host read gives a value (R44, R45). -/
theorem hostRead_ok_of_wf {a : Nat} (h : (HostAccess.read a).wf = true) (s : State) : ∃ n, hostRead a s = .ok n := by
  cases hr : hostRead a s with
  | ok n => exact ⟨n, rfl⟩
  | error r =>
    have hill := (hostRead_error_iff_not_wf a s).mp ⟨r, hr⟩
    exact absurd (h.symm.trans hill) (by decide)

/-! ### What an event does -/

/-- The events that survive a failed CHK are the resets (log 6). -/
theorem isReset_iff (e : Event) : isReset e = true ↔ e = .reset := by
  cases e <;> simp [isReset]

/-- STATUS reads as ERR (10_state.md R25). -/
theorem statusValue_toNat_eq_errField (s : State) : (statusValue s).toNat = (errField s.status).toNat := by
  rw [statusValue, statusOf, BitVec.toNat_setWidth_of_le (by decide)]

/-- The write that MOV puts on the list is well formed, for RES is as wide as its targets (30_encoding.md R69). -/
theorem movWrite_wf (m : MovTarget) (w : Word) : (HostAccess.write (addressOf (movLoc m)) w.toNat).wf = true := by
  rw [write_addressOf_wf]
  cases m <;> exact ⟨rfl, w.isLt⟩

/-- An event keeps the invariant. -/
theorem perform_keeps_inv {e : Event} {s t : State} (hs : StateInv s) (h : perform e s = .next t) : StateInv t := by
  rcases perform_next h with ⟨n, p, rfl⟩ | rfl | ⟨a, v, rfl, hw⟩
  · exact hs
  · exact ⟨Nat.zero_le 4, rfl⟩
  · exact hostWrite_keeps_inv hs hw

/-- A well-formed event answers a next state, and adds no ill-formed event to those still to come. -/
theorem perform_next_of_wf {e : Event} {s : State} (he : e.wf = true) (hs : s.pending.all Event.wf = true) :
    ∃ t, perform e s = .next t ∧ t.pending.all Event.wf = true := by
  rcases e with (a | ⟨a, v⟩) | m | _ | _
  · obtain ⟨n, hn⟩ := hostRead_ok_of_wf he s
    exact ⟨s.note n, perform_read_ok hn, hs⟩
  · obtain ⟨t, ht⟩ := hostWrite_next_of_wf he s
    exact ⟨t, ht, (hostWrite_pending ht).symm ▸ hs⟩
  · refine ⟨_, moveRes_eq m s, ?_⟩
    rw [List.all_cons, hs, Bool.and_true]
    exact movWrite_wf m s.res
  · refine ⟨_, checkStatus_eq s, ?_⟩
    split_ifs
    · exact hs
    · exact List.all_eq_true.mpr fun e hmem => List.all_eq_true.mp hs e (List.mem_of_mem_filter hmem)
  · exact ⟨_, rfl, hs⟩

/-! ### The events of a listing line -/

/-- A fitting write to a writable location is a well-formed event. -/
theorem write_event_wf (l : Loc) {v : Nat} (hl : hostWritable l = true) (hv : v < 2 ^ widthOf l) :
    ([.access (.write (addressOf l) v)] : List Event).all Event.wf = true := by
  rw [List.all_cons, List.all_nil, Bool.and_true]
  exact (write_addressOf_wf l v).mpr ⟨hl, hv⟩

/-- A read of a readable location is a well-formed event. -/
theorem read_event_wf (l : Loc) (hl : hostReadable l = true) :
    ([.access (.read (addressOf l))] : List Event).all Event.wf = true := by
  rw [List.all_cons, List.all_nil, Bool.and_true]
  exact (read_addressOf_wf l).trans hl

/-- LDBLK's writes are well formed as long as they stay inside RB (30_encoding.md R69). -/
theorem blockWrites_wf {i : Nat} {bytes : List Nat} (hlen : i + bytes.length ≤ 17) (hbytes : ∀ b ∈ bytes, b < 2 ^ 8) :
    (blockWrites i bytes).all Event.wf = true := by
  induction bytes generalizing i with
  | nil => rfl
  | cons b bs ih =>
    rw [List.length_cons] at hlen
    have hfirst := write_event_wf (.rb ⟨i, by omega⟩) rfl (hbytes b List.mem_cons_self)
    have hrest := ih (i := i + 1) (by omega) fun c hc => hbytes c (List.mem_cons_of_mem b hc)
    exact List.all_append.trans (Bool.and_eq_true_iff.mpr ⟨hfirst, hrest⟩)

/-! ### Runs, one event at a time -/

/-- A number that fits RES, OPA or OPB is stored as it is. -/
theorem toNat_ofNat_of_fits {n : Nat} (h : n < 2 ^ 32) : (BitVec.ofNat 32 n).toNat = n := by
  rw [BitVec.toNat_ofNat, Nat.mod_eq_of_lt h]

section
variable {k : Nat} {s t : State} {rest : List Event}

/-- A run goes on after a fitting write of OPA. -/
theorem runSteps_write_opa {v : Nat} (h : s.pending = .access (.write 0x03 v) :: rest) (hv : v < 2 ^ 32) :
    runSteps (k + 1) s = runSteps k { s with opa := BitVec.ofNat 32 v, pending := rest } :=
  runSteps_succ ((step_cons h).trans (hostWrite_fits .opa _ rfl hv))

/-- A run goes on after a command. -/
theorem runSteps_command (i : Instr) (h : s.pending = .access (.write 0x00 (encode i).toNat) :: rest) :
    runSteps (k + 1) s =
      runSteps k ({ s with pending := rest }.endWith (commandEnd s.fosc s.opa s.opb s.rb i)) :=
  runSteps_succ ((step_cons h).trans ((hostWrite_encode i _).trans (exec_eq_endWith i _)))

/-- A run goes on after a read of RES. -/
theorem runSteps_read_res (h : s.pending = .access (.read 0x05) :: rest) :
    runSteps (k + 1) s = runSteps k { s with pending := rest, returned := s.returned ++ [s.res.toNat] } :=
  runSteps_succ ((step_cons h).trans (perform_read_ok (hostRead_addressOf .res _)))

/-- A run goes on after the two accesses of a MOV (30_encoding.md R69; log 7). -/
theorem runSteps_mov {m : MovTarget} (h : s.pending = .mov m :: rest)
    (hstore : storeLoc (movLoc m) s.res.toNat { s.note s.res.toNat with pending := rest } = .next t) :
    runSteps (k + 2) s = runSteps k t := by
  rw [runSteps_succ ((step_cons h).trans (moveRes_eq m _)), runSteps_succ]
  rw [step_cons rfl, ← hstore]
  obtain ⟨hwritable, hfits⟩ := (write_addressOf_wf (movLoc m) _).mp (movWrite_wf m s.res)
  exact hostWrite_fits (movLoc m) _ hwritable hfits

/-- `MOV OPA, RES`. -/
theorem runSteps_mov_opa (h : s.pending = .mov .opa :: rest) : runSteps (k + 2) s =
    runSteps k { s with opa := s.res, pending := rest, returned := s.returned ++ [s.res.toNat] } :=
  runSteps_mov h (by rw [movLoc, storeLoc, BitVec.ofNat_toNat, BitVec.setWidth_eq]; rfl)

/-- `MOV OPB, RES`. -/
theorem runSteps_mov_opb (h : s.pending = .mov .opb :: rest) : runSteps (k + 2) s =
    runSteps k { s with opb := s.res, pending := rest, returned := s.returned ++ [s.res.toNat] } :=
  runSteps_mov h (by rw [movLoc, storeLoc, BitVec.ofNat_toNat, BitVec.setWidth_eq]; rfl)

/-! ### The three parts of the host's sequence for one sub-timeout (40_timing_calculator.md R103) -/

/-- MACROP's period goes to OPB. -/
theorem runSteps_macroPeriod_to_opb {v : Nat}
    (h : s.pending = .access (.write 0x03 v) :: .access (.write 0x00 0x01) :: .mov .opb :: rest) (hv : v < 2 ^ 8)
    (hfits : macroPeriod v s.fosc.toNat < 2 ^ 32) :
    runSteps (k + 4) s = runSteps k { s with
      opa := BitVec.ofNat 32 v
      opb := BitVec.ofNat 32 (macroPeriod v s.fosc.toNat)
      res := BitVec.ofNat 32 (macroPeriod v s.fosc.toNat)
      status := 0
      pending := rest
      returned := s.returned ++ [macroPeriod v s.fosc.toNat] } := by
  have hv32 : v < 2 ^ 32 := by omega
  have hopa : (BitVec.ofNat 32 v).toNat = v := toNat_ofNat_of_fits hv32
  have hend : commandEnd s.fosc (BitVec.ofNat 32 v) s.opb s.rb .macrop = scalarEnd (.ok (macroPeriod v s.fosc.toNat)) := by
    rw [commandEnd_macrop_of_fits (by rwa [hopa]) (by rwa [hopa]), hopa]
  rw [runSteps_write_opa h hv32, runSteps_command .macrop rfl, hend, runSteps_mov_opb rfl]
  simp only [State.endWith, scalarEnd, Option.getD_some, Option.getD_none, toNat_ofNat_of_fits hfits]
  rfl

/-- The clocks go to OPA. -/
theorem runSteps_clocks_to_opa {u : Nat}
    (h : s.pending = .access (.write 0x03 u) :: .access (.write 0x00 0x02) :: .mov .opa :: rest) (hu : u < 2 ^ 32)
    (hopb : s.opb ≠ 0) (hfits : usToMclks u s.opb.toNat < 2 ^ 32) :
    runSteps (k + 4) s = runSteps k { s with
      opa := BitVec.ofNat 32 (usToMclks u s.opb.toNat)
      res := BitVec.ofNat 32 (usToMclks u s.opb.toNat)
      status := 0
      pending := rest
      returned := s.returned ++ [usToMclks u s.opb.toNat] } := by
  have hopa : (BitVec.ofNat 32 u).toNat = u := toNat_ofNat_of_fits hu
  have hend : commandEnd s.fosc (BitVec.ofNat 32 u) s.opb s.rb .us2mclk = scalarEnd (.ok (usToMclks u s.opb.toNat)) := by
    rw [commandEnd_us2mclk_of_fits hopb (by rwa [hopa]), hopa]
  rw [runSteps_write_opa h hu, runSteps_command .us2mclk rfl, hend, runSteps_mov_opa rfl]
  simp only [State.endWith, scalarEnd, Option.getD_some, Option.getD_none, toNat_ofNat_of_fits hfits]
  rfl

/-- The code is read from RES. -/
theorem runSteps_encode_and_read (h : s.pending = .access (.write 0x00 0x03) :: .access (.read 0x05) :: rest) :
    runSteps (k + 2) s = runSteps k { s with
      res := BitVec.ofNat 32 (encodeTimeout s.opa.toNat)
      status := 0
      pending := rest
      returned := s.returned ++ [encodeTimeout s.opa.toNat] } := by
  have hfits : encodeTimeout s.opa.toNat < 2 ^ 32 := (encodeTimeout_le s.opa.isLt).trans_lt (by norm_num)
  rw [runSteps_command .encto h, runSteps_read_res rfl]
  simp only [State.endWith, commandEnd, scalarEnd, Option.getD_some, Option.getD_none, toNat_ofNat_of_fits hfits]
  rfl

end

/-! ### The obligations on every step -/

/-- Settles O3: the next event keeps the invariant, and with none nothing changes. -/
theorem stepKeepsInv : Obligations.StepKeepsInv := by
  intro s t hs h
  cases hp : s.pending with
  | nil =>
    rw [step_nil hp] at h
    cases h
    exact hs
  | cons e rest =>
    rw [step_cons hp] at h
    exact perform_keeps_inv (s := { s with pending := rest }) hs h

/-- Settles O4: the next event is well formed, and so are those that follow it. -/
theorem wellFormedEventsNeverStop : Obligations.WellFormedEventsNeverStop := by
  intro s hs
  cases hp : s.pending with
  | nil => exact ⟨s, step_nil hp, hs⟩
  | cons e rest =>
    rw [hp, List.all_cons, Bool.and_eq_true] at hs
    obtain ⟨he, hrest⟩ := hs
    rw [step_cons hp]
    exact perform_next_of_wf he hrest

/-- Settles O2: STATUS 0 is legal and the empty list canonical. -/
theorem resetMeetsInv : Obligations.ResetMeetsInv :=
  ⟨Nat.zero_le 4, memory_wf_nil⟩

/-- Settles O5: the event is taken off the list before it acts, and the reset keeps what is the host's. -/
theorem resetLineResetsBlock : Obligations.ResetLineResetsBlock :=
  fun _ _ h => step_cons h

/-- Settles O6: a step is the next event, and there is none. -/
theorem idleBlockHoldsState : Obligations.IdleBlockHoldsState :=
  fun _ => step_nil

/-! ### The obligations on the host port and its listing -/

/-- Settles O12: the port's own checks, a read and a write each. -/
theorem wellFormedIffNotRefused : Obligations.WellFormedIffNotRefused := by
  intro h s
  cases h with
  | read a => rw [perform_read_refused_iff, hostRead_error_iff_not_wf]
  | write a v => exact (hostWrite_refused_iff_not_wf a v s).symm

/-- Settles O13: a line's bounds are the widths of the locations it writes and the offsets of RB. -/
theorem wellFormedLinesGiveWellFormedEvents : Obligations.WellFormedLinesGiveWellFormedEvents := by
  intro l h
  cases l with
  | wrFosc n => exact write_event_wf .fosc rfl (of_decide_eq_true h)
  | wrOpa n => exact write_event_wf .opa rfl (of_decide_eq_true h)
  | wrOpb n => exact write_event_wf .opb rfl (of_decide_eq_true h)
  | wrb i n =>
    obtain ⟨hi, hn⟩ := Bool.and_eq_true_iff.mp h
    exact write_event_wf (.rb ⟨i, Nat.lt_succ_of_le (of_decide_eq_true hi)⟩) rfl (of_decide_eq_true hn)
  | command i => exact write_event_wf .cmd rfl (encode i).isLt
  | cmd n => exact write_event_wf .cmd rfl (of_decide_eq_true h)
  | rdStatus => exact read_event_wf .status rfl
  | rdFosc => exact read_event_wf .fosc rfl
  | rdOpa => exact read_event_wf .opa rfl
  | rdOpb => exact read_event_wf .opb rfl
  | rdRes => exact read_event_wf .res rfl
  | rdMeas => exact read_event_wf .meas rfl
  | rdb i => exact read_event_wf (.rb ⟨i, Nat.lt_succ_of_le (of_decide_eq_true h)⟩) rfl
  | mov t => rfl
  | ldblk bytes =>
    obtain ⟨hlen, hbytes⟩ := Bool.and_eq_true_iff.mp h
    have hlen17 : bytes.length = 17 := of_decide_eq_true hlen
    exact blockWrites_wf (by omega) fun b hb => of_decide_eq_true (List.all_eq_true.mp hbytes b hb)
  | chk => rfl

/-- Settles O9: the step is the read, which only notes its value. -/
theorem hostNotesReadValues : Obligations.HostNotesReadValues :=
  fun _ _ _ _ hp hread => (step_cons hp).trans (perform_read_ok hread)

/-- Settles O10: a read of STATUS gives ERR, a field of three bits. -/
theorem statusReadsHardwiredBitsZero : Obligations.StatusReadsHardwiredBitsZero :=
  fun s => ⟨_, hostRead_addressOf .status s, (statusValue_toNat_eq_errField s).trans_lt (errField s.status).isLt,
    statusValue_toNat_eq_errField s⟩

/-- Settles O14: both targets are as wide as RES. -/
theorem movCarriesResult : Obligations.MovCarriesResult :=
  fun _ _ => ⟨runSteps_mov_opa (k := 0), runSteps_mov_opb (k := 0)⟩

/-- Settles O15: CHK reads ERR, and the events it keeps after an error are the resets. -/
theorem chkStopsOnErrorCode : Obligations.ChkStopsOnErrorCode := by
  intro s rest hp
  have hstep := (step_cons hp).trans (checkStatus_eq _)
  have hvalue : (statusValue { s with pending := rest }).toNat = (errField s.status).toNat :=
    statusValue_toNat_eq_errField _
  rw [hvalue] at hstep
  constructor
  · intro hok
    rw [hstep, hok]
    rfl
  · intro herr
    have hcode : (errField s.status).toNat ≠ 0 := fun h => herr (BitVec.eq_of_toNat_eq h)
    rw [if_neg hcode] at hstep
    exact ⟨rest.filter isReset, hstep, fun e => by rw [List.mem_filter, isReset_iff]⟩

/-! ### The obligations on decoding -/

/-- Settles O16: the six words are the instructions' codes, the other three lie outside them. -/
theorem commandWordsDecode : Obligations.CommandWordsDecode :=
  ⟨decode_encode .macrop, decode_encode .us2mclk, decode_encode .encto, decode_encode .decto, decode_encode .gainc,
    decode_encode .unpack, decode_of_reserved (by decide), decode_of_reserved (by decide), decode_of_reserved (by decide)⟩

/-- Settles O17: what decodes is a code, and each code decodes to its instruction. -/
theorem decodeEncodeAgree : Obligations.DecodeEncodeAgree := by
  intro c i
  constructor
  · intro h
    rcases decode_cases c with ⟨j, hj, hc⟩ | hreject
    · cases hj.symm.trans h
      exact hc
    · cases hreject.symm.trans h
  · rintro rfl
    exact decode_encode i

/-- Settles O18: the step is the write, the port runs the command, and the decoder gives the instruction. -/
theorem stepRunsDecodedCommand : Obligations.StepRunsDecodedCommand := by
  intro s rest c i hp hc hdecode _
  rw [step_cons hp, perform, hostWrite_cmd hc, runCommand, hdecode]

/-- Settles O35: R94 on the two fields. -/
theorem decodeOfFields : Obligations.DecodeOfFields := by
  intro e m _ hm
  have hexponent := exponentOf_fields (Nat.lt_succ_of_le hm) e
  have hmantissa := mantissaOf_fields (Nat.lt_succ_of_le hm) e
  exact ⟨hexponent, hmantissa, by rw [decodeTimeout_eq, hexponent, hmantissa]⟩

/-! ### The obligations on what a command reads and writes -/

/-- Settles O21: a command leaves its operand items alone, so it ends the second time as it did the first. -/
theorem commandWriteIdempotent : Obligations.CommandWriteIdempotent := by
  intro s t c h
  obtain ⟨hc, hrun⟩ := hostWrite_cmd_next h
  rw [runCommand_eq_endWith] at hrun
  cases hrun
  rw [hostWrite_cmd hc, runCommand_eq_endWith]
  exact congrArg _ (endWith_endWith s _)

/-- Settles O53: STATUS is no operand item, and every command overwrites it. -/
theorem commandOverwritesStatus : Obligations.CommandOverwritesStatus := by
  intro s c old hc
  constructor
  · rw [hostWrite_cmd hc, hostWrite_cmd hc, runCommand_eq_endWith, runCommand_eq_endWith]
    rfl
  · exact ⟨_, (hostWrite_cmd hc s).trans (runCommand_eq_endWith _ s), cmdWriteEnd_status_le _⟩

/-- Settles O54: a command updates STATUS, RES and MEAS only, and which of the last two its kind decides. -/
theorem commandFrame : Obligations.CommandFrame := by
  intro i s t h
  obtain rfl := eq_endWith_of_exec h
  refine ⟨rfl, rfl, rfl, rfl, fun _ => rfl, rfl, rfl, ?_, fun hi => ?_⟩
  · rintro rfl
    rfl
  · rw [State.endWith, commandEnd_meas hi, Option.getD_none]

/-- Settles O55: the end of a command is the same for both values of the item it does not read. -/
theorem commandsIgnoreOtherOperands : Obligations.CommandsIgnoreOtherOperands := by
  intro i s t h
  obtain rfl := eq_endWith_of_exec h
  refine ⟨fun b hi => ?_, fun f hi => ?_, fun m hi => ?_, fun a hi => ?_⟩
  · rw [exec_eq_endWith, commandEnd_ignores_opb (b := s.opb) hi]
    rfl
  · rw [exec_eq_endWith, commandEnd_ignores_fosc (f := s.fosc) hi]
    rfl
  · rw [exec_eq_endWith, commandEnd_ignores_rb (m := s.rb) hi]
    rfl
  · rw [hi]
    rfl

/-- Settles O56: RES, MEAS and the host's lists are no operand items; a register the command does not write keeps what it held. -/
theorem commandsHaveNoHiddenState : Obligations.CommandsHaveNoHiddenState := by
  intro i s t r m p q h
  obtain rfl := eq_endWith_of_exec h
  exact ⟨_, exec_eq_endWith i _, rfl, getD_eq_or_kept _ r s.res, getD_eq_or_kept _ m s.meas⟩

/-- Settles O50: both lists are canonical from offset 0 on. -/
theorem canonicalMemoriesAreEqual : Obligations.CanonicalMemoriesAreEqual :=
  fun _ _ => memory_ext_from

/-- Settles O43: MACROP's period is at least 18432, so it is no zero divisor and the clocks fit. -/
theorem budgetSequenceGivesComposite : Obligations.BudgetSequenceGivesComposite := by
  intro s v t rest hp hv ht hfosc hfits
  have hf : 1 ≤ s.fosc.toNat := Nat.pos_of_ne_zero fun h => hfosc (BitVec.eq_of_toNat_eq h)
  have hperiod : 18432 ≤ macroPeriod v s.fosc.toNat := le_macroPeriod hf (Nat.le_of_lt_succ s.fosc.isLt) v
  have hopb : (BitVec.ofNat 32 (macroPeriod v s.fosc.toNat)).toNat = macroPeriod v s.fosc.toNat :=
    toNat_ofNat_of_fits hfits
  have hopb0 : BitVec.ofNat 32 (macroPeriod v s.fosc.toNat) ≠ 0 := by
    intro h
    rw [h] at hopb
    exact absurd (hopb.trans_ge hperiod) (by decide)
  have hclocks : usToMclks t (macroPeriod v s.fosc.toNat) < 2 ^ 32 :=
    (usToMclks_le_of_macroPeriod ht hperiod).trans_lt (by norm_num)
  rw [runSteps_macroPeriod_to_opb hp hv hfits, runSteps_clocks_to_opa rfl ht hopb0 (by rw [hopb]; exact hclocks),
    runSteps_encode_and_read rfl, runSteps_zero]
  simp only [hopb, toNat_ofNat_of_fits hclocks, List.append_eq, List.append_assoc, List.cons_append,
    List.nil_append, encodeBudget]

end Sys2Proof.Machine
end
